-- ==== Sys2Proof/Word.lean ====
section
/-! DEFINITION. The widths of QGKG's cells (20_memory.md R50): a byte, a field element of at most 13 bits, a 32-bit word
and a 64-bit sort key. -/

namespace Sys2Proof

/-- A cell of SK, MAT and PK (R50). -/
abbrev Byte := BitVec 8

/-- A field element: an unsigned integer of GFBITS bits (R100), GFBITS at most 13 (R10). At a smaller GFBITS the upper
bits are 0, which is part of `Memory.wf`. -/
abbrev Elem := BitVec 13

/-- A cell of PERM (R36), the register STATUS (R30) and a command word (R80). -/
abbrev Word := BitVec 32

/-- A composite sort key of SUP.GEN (R122). -/
abbrev Key := BitVec 64

end Sys2Proof
end

