-- ==== Sys2Proof/Config.lean ====
section
/-! DEFINITION. What is fixed for one machine (the parameter set of 00_scope.md R8 to R10), the names of the seven data
spaces (20_memory.md R50), and the values the spec leaves free (10_state.md R45). -/

namespace Sys2Proof

/-- The parameter set of R8. The other names of R8's table are computed from these four. -/
structure Params where
  /-- GFBITS, the bits of a field element. -/
  gfbits : Nat
  /-- SYS_T, the degree of the Goppa polynomial. -/
  sysT : Nat
  /-- SYS_N, the code length. -/
  sysN : Nat
  /-- FIELD_POLY, bit `i` the coefficient of `x^i` (R102). -/
  fieldPoly : Nat
  deriving DecidableEq, Repr

/-- GFMASK (R8): the low GFBITS bits set. -/
def Params.gfmask (p : Params) : Elem := BitVec.ofNat 13 (2 ^ p.gfbits - 1)

/-- PK_NROWS (R8). -/
def Params.pkNrows (p : Params) : Nat := p.gfbits * p.sysT

/-- ROW_BYTES (R8), the stride of MAT. -/
def Params.rowBytes (p : Params) : Nat := p.sysN / 8

/-- PK_ROW_BYTES (R8), the stride of PK. -/
def Params.pkRowBytes (p : Params) : Nat := (p.sysN - p.pkNrows) / 8

/-- PK_BYTES (R8). -/
def Params.pkBytes (p : Params) : Nat := p.pkNrows * p.pkRowBytes

/-- PERM_LEN (R8). -/
def Params.permLen (p : Params) : Nat := 2 ^ p.gfbits

/-- SK_BYTES (R8). -/
def Params.skBytes (p : Params) : Nat := 2 * p.sysT

/-- The hardware instance (R8), with the default FIELD_POLY of R9.
PRESUMED: the spec marks 0x201B as general knowledge (log 1). -/
def Params.hw : Params := { gfbits := 13, sysT := 128, sysN := 8192, fieldPoly := 0x201B }

/-- The test instance T16 of R10. -/
def Params.t16 : Params := { gfbits := 4, sysT := 2, sysN := 16, fieldPoly := 0x13 }

/-- The seven data spaces (R50). -/
inductive Space where
  | sk | g | perm | l | inv | mat | pk
  deriving DecidableEq, Repr

/-- The number of cells of a space (R50). -/
def Params.cells (p : Params) : Space → Nat
  | .sk => p.skBytes
  | .g => p.sysT + 1
  | .perm => p.permLen
  | .l => p.sysN
  | .inv => p.sysN
  | .mat => p.pkNrows * p.rowBytes
  | .pk => p.pkBytes

/-- What FR holds after the reset numbered `draw`: unspecified (R45), so a free value (log 3). -/
opaque Config.resetFr (draw : Nat) : Elem

/-- What cell `i` of a space holds after the reset numbered `draw`: unspecified (R45), so a free value (log 3). -/
opaque Config.resetCell (draw : Nat) (sp : Space) (i : Nat) : Word

end Sys2Proof
end

