-- ==== Sys2Proof/Syntax.lean ====
section
/-! DEFINITION. The ten commands of 30_encoding.md R83, one constructor a row of spec/opcode_table.json, and their
mnemonics (R87, R89). Operands are the 13-bit immediates of R82. -/

namespace Sys2Proof

/-- The command set (R83, R246). -/
inductive Instr where
  /-- `GF.MUL a, b` (R110). -/
  | gfMul (a b : BitVec 13)
  /-- `GF.INV a` (R111). -/
  | gfInv (a : BitVec 13)
  /-- `GF.BITREV a` (R112). -/
  | gfBitrev (a : BitVec 13)
  /-- `SK.LOADG` (R142). -/
  | skLoadg
  /-- `SUP.GEN` (R126). -/
  | supGen
  /-- `ROOT.EVAL` (R146). -/
  | rootEval
  /-- `MAT.BUILD` (R165). -/
  | matBuild
  /-- `RED.RUN` (R190). -/
  | redRun
  /-- `PK.SER` (R212). -/
  | pkSer
  /-- `PK.GEN` (R215). -/
  | pkGen
  deriving DecidableEq, Repr

/-- The operations of R83, without operands. -/
inductive Opcode where
  | gfMul | gfInv | gfBitrev | skLoadg | supGen | rootEval | matBuild | redRun | pkSer | pkGen
  deriving DecidableEq, Repr

/-- The operation of a command. -/
def Instr.opcode : Instr → Opcode
  | .gfMul _ _ => .gfMul
  | .gfInv _ => .gfInv
  | .gfBitrev _ => .gfBitrev
  | .skLoadg => .skLoadg
  | .supGen => .supGen
  | .rootEval => .rootEval
  | .matBuild => .matBuild
  | .redRun => .redRun
  | .pkSer => .pkSer
  | .pkGen => .pkGen

/-- The mnemonics: upper case with one dot (R87). -/
def Opcode.mnemonic : Opcode → String
  | .gfMul => "GF.MUL"
  | .gfInv => "GF.INV"
  | .gfBitrev => "GF.BITREV"
  | .skLoadg => "SK.LOADG"
  | .supGen => "SUP.GEN"
  | .rootEval => "ROOT.EVAL"
  | .matBuild => "MAT.BUILD"
  | .redRun => "RED.RUN"
  | .pkSer => "PK.SER"
  | .pkGen => "PK.GEN"

/-- The operands of a command in the order of R87, as numbers. -/
def Instr.operands : Instr → List Nat
  | .gfMul a b => [a.toNat, b.toNat]
  | .gfInv a => [a.toNat]
  | .gfBitrev a => [a.toNat]
  | .skLoadg => []
  | .supGen => []
  | .rootEval => []
  | .matBuild => []
  | .redRun => []
  | .pkSer => []
  | .pkGen => []

/-- A line of assembler after its text is split (R87): a mnemonic and its operands as the numbers written. -/
structure AsmLine where
  mnemonic : String
  operands : List Nat
  deriving DecidableEq, Repr

end Sys2Proof
end

