-- ==== Sys2Proof/Decode.lean ====
section
/-! DEFINITION. Command words (30_encoding.md R80 to R86): the opcode map, the decoder, total on 32-bit words and
rejecting by name, and the encoder. -/

namespace Sys2Proof

/-! ## The opcode map (R83) -/

/-- The value of OP = cmd[31:28] (R83). -/
def Opcode.code : Opcode → BitVec 4
  | .gfMul => 0x1
  | .gfInv => 0x2
  | .gfBitrev => 0x3
  | .skLoadg => 0x4
  | .supGen => 0x5
  | .rootEval => 0x6
  | .matBuild => 0x7
  | .redRun => 0x8
  | .pkSer => 0x9
  | .pkGen => 0xA

/-- The operation OP selects; OP 0x0 and 0xB to 0xF are reserved (R83, R85). -/
def Opcode.ofCode (op : BitVec 4) : Option Opcode :=
  if op = 0x1#4 then some .gfMul
  else if op = 0x2#4 then some .gfInv
  else if op = 0x3#4 then some .gfBitrev
  else if op = 0x4#4 then some .skLoadg
  else if op = 0x5#4 then some .supGen
  else if op = 0x6#4 then some .rootEval
  else if op = 0x7#4 then some .matBuild
  else if op = 0x8#4 then some .redRun
  else if op = 0x9#4 then some .pkSer
  else if op = 0xA#4 then some .pkGen
  else none

/-- The column `match` of R83. -/
def Opcode.matchBits : Opcode → Word
  | .gfMul => 0x10000000
  | .gfInv => 0x20000000
  | .gfBitrev => 0x30000000
  | .skLoadg => 0x40000000
  | .supGen => 0x50000000
  | .rootEval => 0x60000000
  | .matBuild => 0x70000000
  | .redRun => 0x80000000
  | .pkSer => 0x90000000
  | .pkGen => 0xA0000000

/-- The column `mask` of R83: F2 leaves A and B free, F1 leaves A free, N leaves nothing free (R81). -/
def Opcode.maskBits : Opcode → Word
  | .gfMul => 0xFC000000
  | .gfInv => 0xFFFFE000
  | .gfBitrev => 0xFFFFE000
  | .skLoadg => 0xFFFFFFFF
  | .supGen => 0xFFFFFFFF
  | .rootEval => 0xFFFFFFFF
  | .matBuild => 0xFFFFFFFF
  | .redRun => 0xFFFFFFFF
  | .pkSer => 0xFFFFFFFF
  | .pkGen => 0xFFFFFFFF

/-! ## Decoding (R82, R84, R85) -/

/-- OP = cmd[31:28] (R81). -/
def fieldOp (w : Word) : BitVec 4 := w.extractLsb' 28 4

/-- A = cmd[12:0] (R82). -/
def fieldA (w : Word) : BitVec 13 := w.extractLsb' 0 13

/-- B = cmd[25:13] (R82). -/
def fieldB (w : Word) : BitVec 13 := w.extractLsb' 13 13

/-- Why a word names no command (R85). -/
inductive DecodeError where
  /-- OP is 0x0 or 0xB to 0xF. -/
  | reservedOp (op : BitVec 4)
  /-- A 1 stands in a "must be 0" position of the format of `o`. -/
  | mustBeZero (o : Opcode)
  deriving DecidableEq, Repr

/-- The command of an operation with the operand fields of the word; the formats that lack a field ignore it (R81). -/
def Opcode.instr (o : Opcode) (a b : BitVec 13) : Instr :=
  match o with
  | .gfMul => .gfMul a b
  | .gfInv => .gfInv a
  | .gfBitrev => .gfBitrev a
  | .skLoadg => .skLoadg
  | .supGen => .supGen
  | .rootEval => .rootEval
  | .matBuild => .matBuild
  | .redRun => .redRun
  | .pkSer => .pkSer
  | .pkGen => .pkGen

/-- The decoder of R84: compute OP; the word is that command when it satisfies the row's mask and match; every other
word is undefined (R85). -/
def decode (w : Word) : Except DecodeError Instr :=
  match Opcode.ofCode (fieldOp w) with
  | none => .error (.reservedOp (fieldOp w))
  | some o =>
    if w &&& o.maskBits = o.matchBits then .ok (o.instr (fieldA w) (fieldB w)) else .error (.mustBeZero o)

/-- The word of `nbits` bits with value `w`, numbered as spec/opcode_table.json numbers it: a command is one 32-bit word
(R80), so the bits above `nbits` are 0 and a value that does not fit is no word. -/
def decodeTableWord (nbits w : Nat) : Option Instr :=
  if nbits ≤ 32 ∧ w < 2 ^ nbits then
    match decode (BitVec.ofNat 32 w) with
    | .ok i => some i
    | .error _ => none
  else none

/-! ## Encoding (R81) -/

/-- Format F2: OP, 00, B, A (R81). -/
def formatF2 (op : BitVec 4) (b a : BitVec 13) : Word := op ++ 0#2 ++ b ++ a

/-- Format F1: OP, 00, thirteen zeros, A (R81). -/
def formatF1 (op : BitVec 4) (a : BitVec 13) : Word := op ++ 0#2 ++ 0#13 ++ a

/-- Format N: OP, then zeros (R81). -/
def formatN (op : BitVec 4) : Word := op ++ 0#2 ++ 0#13 ++ 0#13

/-- The word of a command (R81, R83). -/
def encode : Instr → Word
  | .gfMul a b => formatF2 0x1 b a
  | .gfInv a => formatF1 0x2 a
  | .gfBitrev a => formatF1 0x3 a
  | .skLoadg => formatN 0x4
  | .supGen => formatN 0x5
  | .rootEval => formatN 0x6
  | .matBuild => formatN 0x7
  | .redRun => formatN 0x8
  | .pkSer => formatN 0x9
  | .pkGen => formatN 0xA

end Sys2Proof
end

