-- ==== Sys2Proof/Machine/State.lean ====
section
/-! DEFINITION. The state of QGKG and of its host (10_state.md), and the state after reset (70_reset_and_hazards.md
R261). Plain data throughout. -/

namespace Sys2Proof.Machine

/-- The seven buffers, one list of cells each, index 0 first (10_state.md R34 to R40, 20_memory.md R50). MAT and PK are
row-major (R54). Every cell is listed: all storage is of fixed size (00_scope.md R11; log 4). -/
structure Memory where
  sk : List Byte
  g : List Elem
  perm : List Word
  l : List Elem
  inv : List Elem
  mat : List Byte
  pk : List Byte
  deriving DecidableEq, Repr

/-- The two registers, which the host reads by name (20_memory.md R58). -/
inductive Reg where
  | fr | status
  deriving DecidableEq, Repr

/-- One item of a run (70_reset_and_hazards.md R273): a command word (R33, R80), a host access of R58, or a reset
(R260; log 11). -/
inductive HostMove where
  | command (w : Word)
  | hostWrite (sp : Space) (idx : Nat) (v : Nat)
  | hostRead (sp : Space) (idx : Nat)
  | hostReadReg (r : Reg)
  /-- A reset between commands. -/
  | reset
  /-- A command word during whose command a reset arrives; assumed absent from a run a claim speaks of (R274). -/
  | resetDuring (w : Word)
  deriving DecidableEq, Repr

/-- What a host read gave (20_memory.md R58), zero-extended to 32 bits (log 7). -/
inductive Reply where
  | cell (sp : Space) (idx : Nat) (v : Word)
  | reg (r : Reg) (v : Word)
  deriving DecidableEq, Repr

structure State where
  /-- The machine's parameter set (00_scope.md R8 to R10); no step changes it (log 2). -/
  params : Params
  /-- FR, the field result register (10_state.md R22). -/
  fr : Elem
  /-- STATUS (10_state.md R30, R31). -/
  status : Word
  /-- SK, G, PERM, L, INV, MAT, PK (10_state.md R34 to R40). -/
  mem : Memory
  /-- Host: the rest of the run, next item first (10_state.md R33, 70_reset_and_hazards.md R273; log 5). -/
  pending : List HostMove
  /-- Host: the index of the next command in the program (10_state.md R33). -/
  index : Nat
  /-- Host: what it has read, oldest first (20_memory.md R58; log 7). -/
  replies : List Reply
  /-- The model's own: the number of the next reset's draw of free values (10_state.md R45; log 3). -/
  draws : Nat
  deriving DecidableEq, Repr

/-- QGKG has no fault: its one exception, NonSystematic, returns control to the host and the unit accepts the next
command (60_exceptions.md R236, R237), so it is a next state; no command can raise an access fault (20_memory.md R56);
no behaviour is stuck (70_reset_and_hazards.md R271). So nobody raises a fault, and the type is empty (log 13). -/
inductive Fault where
  deriving DecidableEq, Repr

/-- Why the model gives a step no meaning. -/
inductive Refusal where
  /-- An arm of `exec` without a meaning. Raised by no arm of this model. Safe: nothing is claimed of the run. -/
  | notModelled (mnemonic : String)
  /-- A command word that names no command, raised by `step`; no state changes (30_encoding.md R85, 60_exceptions.md
  R233). Safe: a run that contains one has no final state (70_reset_and_hazards.md R273). -/
  | undefinedWord (w : Word) (e : DecodeError)
  /-- A host access outside a space's index range, raised by `step` (20_memory.md R56). Safe: such an access has no
  meaning. -/
  | hostIndexOutOfRange (sp : Space) (idx : Nat)
  deriving DecidableEq, Repr

/-- An element as a reset leaves it: unspecified within GFBITS bits (10_state.md R45, 40_field_arithmetic.md R100). -/
def resetElem (p : Params) (draw : Nat) (sp : Space) (i : Nat) : Elem :=
  (Config.resetCell draw sp i).setWidth 13 &&& p.gfmask

/-- A byte as a reset leaves it (10_state.md R45). -/
def resetByte (draw : Nat) (sp : Space) (i : Nat) : Byte := (Config.resetCell draw sp i).setWidth 8

/-- The buffers as the reset numbered `draw` leaves them: every cell unspecified (10_state.md R45; log 3). -/
def resetMemory (p : Params) (draw : Nat) : Memory where
  sk := (List.range (p.cells .sk)).map (resetByte draw .sk)
  g := (List.range (p.cells .g)).map (resetElem p draw .g)
  perm := (List.range (p.cells .perm)).map (Config.resetCell draw .perm)
  l := (List.range (p.cells .l)).map (resetElem p draw .l)
  inv := (List.range (p.cells .inv)).map (resetElem p draw .inv)
  mat := (List.range (p.cells .mat)).map (resetByte draw .mat)
  pk := (List.range (p.cells .pk)).map (resetByte draw .pk)

/-- A machine with parameter set `p` after its first reset (70_reset_and_hazards.md R261), before the host has issued
anything. -/
def State.initial (p : Params) : State where
  params := p
  fr := Config.resetFr 0 &&& p.gfmask
  status := 0
  mem := resetMemory p 0
  pending := []
  index := 0
  replies := []
  draws := 1

/-- The hardware after reset (00_scope.md R8, 70_reset_and_hazards.md R261). -/
def State.reset : State := State.initial Params.hw

end Sys2Proof.Machine
end

