-- ==== Sys2Proof/Machine/Flags.lean ====
section
/-! DEFINITION. The one flag, FAIL, and the register STATUS that shows it (10_state.md R30 to R32). -/

namespace Sys2Proof.Machine

/-- `sext_32(f)`: one bit copied to 32 (00_scope.md R12, 10_state.md R31). -/
def sext32 (f : Bool) : Word := (BitVec.ofBool f).signExtend 32

/-- The flag FAIL, read from STATUS (10_state.md R31). -/
def State.fail (s : State) : Bool := s.status.getLsbD 0

/-- `FAIL <- f`, so `STATUS <- sext_32(f)` (10_state.md R31, R32). -/
def State.setFail (s : State) (f : Bool) : State := { s with status := sext32 f }

end Sys2Proof.Machine
end

