-- ==== Sys2Proof/Machine/Ops.lean ====
section
/-! DEFINITION. The operations the commands share: bounded loops (00_scope.md R12, R15), cells of buffers (R13), bytes and
bits of MAT (20_memory.md R53, R54), the form of the memory (`Memory.wf`), host accesses (R58), raising NonSystematic
(60_exceptions.md R236) and reset (70_reset_and_hazards.md R260). -/

namespace Sys2Proof.Machine

/-! ## Loops -/

/-- `for i in 0..n: s <- f i s`, ascending and half-open (R12). -/
def loopUp {σ : Type} : Nat → (Nat → σ → σ) → σ → σ
  | 0, _, s => s
  | n + 1, f, s => f n (loopUp n f s)

/-- `for i in (n - 1) down to 0: s <- f i s`. -/
def loopDown {σ : Type} : Nat → (Nat → σ → σ) → σ → σ
  | 0, _, s => s
  | n + 1, f, s => loopDown n f (f n s)

/-! ## Cells -/

/-- `BUF[i]` (R13). No command reads outside a buffer (R56); there the reading is 0 (log 20). -/
def cell {w : Nat} (buf : List (BitVec w)) (i : Nat) : BitVec w := buf.getD i 0

/-- `BUF[i] <- v` (R13). No command writes outside a buffer (R56); there nothing is written (log 20). -/
def setCell {w : Nat} (buf : List (BitVec w)) (i : Nat) (v : BitVec w) : List (BitVec w) := buf.set i v

/-- `MemRead(SPACE, idx, n)` of a byte space: `n` consecutive bytes, the byte at `idx` least significant (R13, R51). -/
def memRead (buf : List Byte) (idx n : Nat) : Nat :=
  loopUp n (fun k v => v ||| ((cell buf (idx + k)).toNat <<< (8 * k))) 0

/-- `MAT[r][c]`: the byte at linear index `r * ROW_BYTES + c` (R11, R39). -/
def matGet (p : Params) (mat : List Byte) (r c : Nat) : Byte := cell mat (r * p.rowBytes + c)

/-- `MAT[r][c] <- v`. -/
def matSet (p : Params) (mat : List Byte) (r c : Nat) (v : Byte) : List Byte := setCell mat (r * p.rowBytes + c) v

/-- Bit column `n` of row `r`: bit `n mod 8` of byte `n div 8`, least significant bit first (R39, R53). -/
def matBit (p : Params) (mat : List Byte) (r n : Nat) : Bool := (matGet p mat r (n / 8)).getLsbD (n % 8)

/-- `sext_8(m)`: one bit widened to a byte mask (R182). -/
def sext8 (m : BitVec 1) : Byte := m.signExtend 8

/-! ## Writing one register or buffer -/

/-- `FR <- v` (R22). -/
def State.setFr (s : State) (v : Elem) : State := { s with fr := v }
/-- All of G rewritten. -/
def State.setG (s : State) (b : List Elem) : State := { s with mem := { s.mem with g := b } }
/-- All of PERM rewritten. -/
def State.setPerm (s : State) (b : List Word) : State := { s with mem := { s.mem with perm := b } }
/-- All of L rewritten. -/
def State.setL (s : State) (b : List Elem) : State := { s with mem := { s.mem with l := b } }
/-- All of INV rewritten. -/
def State.setInv (s : State) (b : List Elem) : State := { s with mem := { s.mem with inv := b } }
/-- All of MAT rewritten. -/
def State.setMat (s : State) (b : List Byte) : State := { s with mem := { s.mem with mat := b } }
/-- All of PK rewritten. -/
def State.setPk (s : State) (b : List Byte) : State := { s with mem := { s.mem with pk := b } }

/-! ## The form of the memory -/

/-- A field element has no bit at or above GFBITS (R100). -/
abbrev elemOk (p : Params) (x : Elem) : Prop := x.toNat < 2 ^ p.gfbits

/-- Every buffer has exactly its number of cells (R50) and every element is in 0 .. GFMASK (R100). -/
abbrev Memory.wf (p : Params) (m : Memory) : Prop :=
  m.sk.length = p.cells .sk ∧ m.g.length = p.cells .g ∧ m.perm.length = p.cells .perm ∧ m.l.length = p.cells .l
    ∧ m.inv.length = p.cells .inv ∧ m.mat.length = p.cells .mat ∧ m.pk.length = p.cells .pk
    ∧ (∀ x ∈ m.g, elemOk p x) ∧ (∀ x ∈ m.l, elemOk p x) ∧ (∀ x ∈ m.inv, elemOk p x)

/-! ## Host accesses (R58) -/

/-- A value offered as a field element is masked with GFMASK (R58, R100). -/
def toElem (p : Params) (v : Nat) : Elem := BitVec.ofNat 13 v &&& p.gfmask

/-- One cell of a space, zero-extended to 32 bits. -/
def Memory.load (m : Memory) (sp : Space) (i : Nat) : Word :=
  match sp with
  | .sk => (cell m.sk i).setWidth 32
  | .g => (cell m.g i).setWidth 32
  | .perm => cell m.perm i
  | .l => (cell m.l i).setWidth 32
  | .inv => (cell m.inv i).setWidth 32
  | .mat => (cell m.mat i).setWidth 32
  | .pk => (cell m.pk i).setWidth 32

/-- One cell of a space stored: `v & GFMASK` to G, L and INV, `v & 0xFFFFFFFF` to PERM (R58), the low 8 bits to a byte
space (92_eei_decisions.md D20: "masked to the element width"; log 10). -/
def Memory.store (p : Params) (m : Memory) (sp : Space) (i v : Nat) : Memory :=
  match sp with
  | .sk => { m with sk := setCell m.sk i (BitVec.ofNat 8 v) }
  | .g => { m with g := setCell m.g i (toElem p v) }
  | .perm => { m with perm := setCell m.perm i (BitVec.ofNat 32 v) }
  | .l => { m with l := setCell m.l i (toElem p v) }
  | .inv => { m with inv := setCell m.inv i (toElem p v) }
  | .mat => { m with mat := setCell m.mat i (BitVec.ofNat 8 v) }
  | .pk => { m with pk := setCell m.pk i (BitVec.ofNat 8 v) }

/-- A register as the host reads it, zero-extended to 32 bits (R58). -/
def State.readReg (s : State) : Reg → Word
  | .fr => s.fr.setWidth 32
  | .status => s.status

/-- `HostWrite(SPACE, idx, v)` (R58); outside the space's index range it has no meaning and is refused (R56). -/
def hostWrite (sp : Space) (idx v : Nat) (s : State) : Host.Outcome State Fault Refusal :=
  if idx < s.params.cells sp then .next { s with mem := s.mem.store s.params sp idx v }
  else .refused (.hostIndexOutOfRange sp idx)

/-- `HostRead(SPACE, idx)` (R58): nothing changes but what the host has read; refused outside the range (R56). -/
def hostRead (sp : Space) (idx : Nat) (s : State) : Host.Outcome State Fault Refusal :=
  if idx < s.params.cells sp then .next { s with replies := s.replies ++ [.cell sp idx (s.mem.load sp idx)] }
  else .refused (.hostIndexOutOfRange sp idx)

/-- `HostReadReg(FR)` and `HostReadReg(STATUS)` (R58). -/
def hostReadReg (r : Reg) (s : State) : Host.Outcome State Fault Refusal :=
  .next { s with replies := s.replies ++ [.reg r (s.readReg r)] }

/-! ## The exception and reset -/

/-- Raising NonSystematic "does exactly this: writes `STATUS <- 0xFFFFFFFF`; ends the command" (R236). Nothing is saved
and no mode changes; control returns to the host. There is no return instruction to stand beside it (R237): the unit
accepts the next command like any other. -/
def raiseNonSystematic (s : State) : State := s.setFail true

/-- A reset (R260): STATUS <- 0 (R44), FR and every buffer unspecified (R45), nothing else of the unit exists (R46). One
that arrives while a command runs abandons the command and leaves the same, "as after any reset" (R260). The host's own
state stays. -/
def resetUnit (s : State) : State :=
  { s with
    fr := Config.resetFr s.draws &&& s.params.gfmask
    status := 0
    mem := resetMemory s.params s.draws
    draws := s.draws + 1 }

end Sys2Proof.Machine
end

