-- ==== Sys2Proof/Machine/Operands.lean ====
section
/-! DEFINITION. Operand assembly (30_encoding.md R82): the only operand form is the 13-bit immediate, unsigned and
unscaled, masked with GFMASK. There are no register or memory operands and no addressing modes (R82). -/

namespace Sys2Proof.Machine

/-- The operand value given to the field function: `A & GFMASK` (R82). -/
def operand (p : Params) (field : BitVec 13) : Elem := field &&& p.gfmask

end Sys2Proof.Machine
end

