-- ==== Sys2Proof/Machine/Field.lean ====
section
/-! DEFINITION. The field arithmetic unit (40_field_arithmetic.md): gf_mul, gf_inv, gf_bitrev and the commands GF.MUL,
GF.INV, GF.BITREV. -/

namespace Sys2Proof.Machine

/-! ## The three functions -/

/-- The carry-less product of `a` and the low `n` bits of `b` (R104, first loop). -/
def clmul (n a b : Nat) : Nat := loopUp n (fun i p => if b.testBit i then p ^^^ (a <<< i) else p) 0

/-- Reduction modulo `poly` of degree `m`, highest bit first: `d = m + e` goes from `2 m - 2` down to `m` (R104, second
loop). -/
def polyReduce (m poly prod : Nat) : Nat :=
  loopDown (m - 1) (fun e p => if p.testBit (m + e) then p ^^^ (poly <<< e) else p) prod

/-- `gf_mul(a, b)` (R104): the product modulo FIELD_POLY, bits GFBITS-1 .. 0. -/
def gfMul (p : Params) (a b : Elem) : Elem :=
  BitVec.ofNat 13 (polyReduce p.gfbits p.fieldPoly (clmul p.gfbits a.toNat b.toNat) % 2 ^ p.gfbits)

/-- `gf_add(a, b)` is exclusive or (R103). -/
def gfAdd (a b : Elem) : Elem := a ^^^ b

/-- `pow(a, n)`: the product of `n` copies of `a`, 1 for `n = 0` (R107, R166). -/
def gfPow (p : Params) (a : Elem) : Nat → Elem
  | 0 => 1
  | n + 1 => gfMul p (gfPow p a n) a

/-- The product of `a^2, a^4, ..., a^(2^n)`, beside `a^(2^n)`: square-and-multiply with a fixed sequence (R107). -/
def gfInvChain (p : Params) (a : Elem) : Nat → Elem × Elem
  | 0 => (a, 1)
  | n + 1 =>
    match gfInvChain p a n with
    | (t, r) => (gfMul p t t, gfMul p r (gfMul p t t))

/-- `gf_inv(a)`: 0 for `a = 0` (R106), else `a^(2^GFBITS - 2)`, which is the inverse (R107). -/
def gfInv (p : Params) (a : Elem) : Elem := if a = 0 then 0 else (gfInvChain p a (p.gfbits - 1)).2

/-- `gf_bitrev(a)`: bit `i` is bit `GFBITS - 1 - i` of `a`; no bit at or above GFBITS (R108). -/
def gfBitrev (p : Params) (a : Elem) : Elem :=
  loopUp p.gfbits (fun i r => r ||| ((BitVec.ofBool (a.getLsbD (p.gfbits - 1 - i))).setWidth 13 <<< i)) 0

/-! ## The three commands -/

/-- `GF.MUL a, b`: `FR <- gf_mul(A & GFMASK, B & GFMASK)` (R110). -/
def execGfMul (a b : BitVec 13) (s : State) : Host.Outcome State Fault Refusal :=
  .next (s.setFr (gfMul s.params (operand s.params a) (operand s.params b)))

/-- `GF.INV a`: `FR <- gf_inv(A & GFMASK)`; zero is no error (R111). -/
def execGfInv (a : BitVec 13) (s : State) : Host.Outcome State Fault Refusal :=
  .next (s.setFr (gfInv s.params (operand s.params a)))

/-- `GF.BITREV a`: `FR <- gf_bitrev(A & GFMASK)` (R112). -/
def execGfBitrev (a : BitVec 13) (s : State) : Host.Outcome State Fault Refusal :=
  .next (s.setFr (gfBitrev s.params (operand s.params a)))

end Sys2Proof.Machine
end

