-- ==== Sys2Proof/Machine/Evaluator.lean ====
section
/-! DEFINITION. The coefficient load and the Goppa-polynomial reciprocal evaluator (42_goppa_evaluator.md): SK.LOADG,
ROOT.EVAL. -/

namespace Sys2Proof.Machine

/-- Coefficient `i`: `(SK[2i] | (SK[2i+1] << 8)) & GFMASK` (R51, R141). -/
def coefficient (p : Params) (sk : List Byte) (i : Nat) : Elem := toElem p (memRead sk (2 * i) 2)

/-- The SYS_T coefficients loaded in ascending order, then the leading 1 (R142). -/
def loadCoefficients (p : Params) (sk : List Byte) (g : List Elem) : List Elem :=
  setCell (loopUp p.sysT (fun i b => setCell b i (coefficient p sk i)) g) p.sysT 1

/-- The effect of SK.LOADG (R142). -/
def skLoadg (s : State) : State := s.setG (loadCoefficients s.params s.mem.sk s.mem.g)

/-- `SK.LOADG` (R142); it validates nothing and cannot fail (R143). -/
def execSkLoadg (s : State) : Host.Outcome State Fault Refusal := .next (skLoadg s)

/-- `gf_eval(G, a)`: Horner's rule from `G[SYS_T]` down (R144). -/
def gfEval (p : Params) (g : List Elem) (a : Elem) : Elem :=
  loopDown p.sysT (fun i r => gfAdd (gfMul p r a) (cell g i)) (cell g p.sysT)

/-- `INV[i] <- gf_inv(gf_eval(G, L[i]))` for every `i` in 0..SYS_N (R145). -/
def reciprocals (p : Params) (g l inv : List Elem) : List Elem :=
  loopUp p.sysN (fun i b => setCell b i (gfInv p (gfEval p g (cell l i)))) inv

/-- The effect of ROOT.EVAL (R146). -/
def rootEval (s : State) : State := s.setInv (reciprocals s.params s.mem.g s.mem.l s.mem.inv)

/-- `ROOT.EVAL` (R146); a root of `g` in the support is no error here (R147). -/
def execRootEval (s : State) : Host.Outcome State Fault Refusal := .next (rootEval s)

end Sys2Proof.Machine
end

