-- ==== Sys2Proof/Machine/Matrix.lean ====
section
/-! DEFINITION. The bit-sliced matrix assembler (43_matrix_builder.md): MAT.BUILD. -/

namespace Sys2Proof.Machine

/-- Bit `k` of an element, as one bit. -/
def elemBit (x : Elem) (k : Nat) : BitVec 1 := BitVec.ofBool (x.getLsbD k)

/-- The byte of bit `k` of positions `j .. j+7`: bit `t` is bit `k` of `INV[j + t]` (R162). -/
def packByte (inv : List Elem) (j k : Nat) : Byte :=
  loopUp 8 (fun t b => b ||| ((elemBit (cell inv (j + t)) k).setWidth 8 <<< t)) 0

/-- The GFBITS rows of layer `i`, group of 8 positions by group (R162). -/
def packLayer (p : Params) (inv : List Elem) (i : Nat) (mat : List Byte) : List Byte :=
  loopUp (p.sysN / 8) (fun j8 m =>
    loopUp p.gfbits (fun k m => matSet p m (i * p.gfbits + k) j8 (packByte inv (8 * j8) k)) m) mat

/-- `INV[j] <- gf_mul(INV[j], L[j])` for every `j` in 0..SYS_N (R164). -/
def advance (p : Params) (l inv : List Elem) : List Elem :=
  loopUp p.sysN (fun j b => setCell b j (gfMul p (cell b j) (cell l j))) inv

/-- The first `n` layers: pack, then advance, after every layer (R164, R165). -/
def buildLayers (p : Params) (l : List Elem) (n : Nat) (mi : List Byte × List Elem) : List Byte × List Elem :=
  loopUp n (fun i mi => (packLayer p mi.2 i mi.1, advance p l mi.2)) mi

/-- The effect of MAT.BUILD (R165). -/
def matBuild (s : State) : State :=
  let mi := buildLayers s.params s.mem.l s.params.sysT (s.mem.mat, s.mem.inv)
  (s.setMat mi.1).setInv mi.2

/-- `MAT.BUILD` (R165). -/
def execMatBuild (s : State) : Host.Outcome State Fault Refusal := .next (matBuild s)

end Sys2Proof.Machine
end

