-- ==== Sys2Proof/Machine/Reducer.lean ====
section
/-! DEFINITION. The branchless Gaussian-elimination reducer (44_systematic_reducer.md): RED.RUN. -/

namespace Sys2Proof.Machine

/-- XOR row `x` into row `y` under the mask `sext_8(m)`, every byte column in ascending order (R182). -/
def xorRow (p : Params) (mat : List Byte) (x y : Nat) (m : BitVec 1) : List Byte :=
  loopUp p.rowBytes (fun c b => matSet p b y c (matGet p b y c ^^^ (matGet p b x c &&& sext8 m))) mat

/-- `(MAT[k][i] >> j) & 1` with `i = row / 8`, `j = row % 8`: the bit of row `k` in the pivot column of `row` (R181). -/
def pivotBit (p : Params) (mat : List Byte) (row k : Nat) : BitVec 1 :=
  (matGet p mat k (row / 8) >>> (row % 8)).setWidth 1

/-- One step of pass 1: row `k` is added to row `row` where their pivot-column bits differ (R183). -/
def pass1Step (p : Params) (row k : Nat) (mat : List Byte) : List Byte :=
  xorRow p mat k row
    (((matGet p mat row (row / 8) ^^^ matGet p mat k (row / 8)) >>> (row % 8)).setWidth 1)

/-- Pass 1, the branchless row-add: every `k` from `row + 1` up to PK_NROWS - 1, ascending (R183). -/
def pass1 (p : Params) (row : Nat) (mat : List Byte) : List Byte :=
  loopUp (p.pkNrows - (row + 1)) (fun t m => pass1Step p row (row + 1 + t) m) mat

/-- One step of pass 3: row `row` is added to row `k` where row `k` has a 1 in the pivot column (R187). -/
def pass3Step (p : Params) (row k : Nat) (mat : List Byte) : List Byte :=
  xorRow p mat row k (pivotBit p mat row k)

/-- Pass 3, clearing the pivot column: every `k` in 0..PK_NROWS but `row`, ascending (R187). -/
def pass3 (p : Params) (row : Nat) (mat : List Byte) : List Byte :=
  loopUp p.pkNrows (fun k m => if k = row then m else pass3Step p row k m) mat

/-- What a pivot step returns (R188). -/
inductive PivotResult where
  /-- The new matrix. -/
  | done (mat : List Byte)
  /-- The pivot check failed; the matrix is as pass 1 left it. -/
  | nonSystematic (mat : List Byte)
  deriving DecidableEq, Repr

/-- The matrix a pivot step or a reduction ends with. -/
def PivotResult.mat : PivotResult → List Byte
  | .done m => m
  | .nonSystematic m => m

/-- `pivot_step(MAT, row)`: pass 1, the check of pass 2, pass 3 (R185, R188). -/
def pivotStep (p : Params) (row : Nat) (mat : List Byte) : PivotResult :=
  let mat1 := pass1 p row mat
  if pivotBit p mat1 row row = 0 then .nonSystematic mat1 else .done (pass3 p row mat1)

/-- The pivot steps of `n` rows from `row` on, ended by the first failing check (R190, R235). -/
def reduceFrom (p : Params) : Nat → Nat → List Byte → PivotResult
  | 0, _, mat => .done mat
  | n + 1, row, mat =>
    match pivotStep p row mat with
    | .done mat' => reduceFrom p n (row + 1) mat'
    | .nonSystematic mat' => .nonSystematic mat'

/-- All PK_NROWS pivots in fixed physical order (R180, R190). -/
def reduce (p : Params) (mat : List Byte) : PivotResult := reduceFrom p p.pkNrows 0 mat

/-- The effect of RED.RUN (R190): success writes `FAIL <- 0`; a failing check raises NonSystematic. -/
def redRun (s : State) : State :=
  match reduce s.params s.mem.mat with
  | .done mat => (s.setMat mat).setFail false
  | .nonSystematic mat => raiseNonSystematic (s.setMat mat)

/-- `RED.RUN` (R190). -/
def execRedRun (s : State) : Host.Outcome State Fault Refusal := .next (redRun s)

end Sys2Proof.Machine
end

