-- ==== Sys2Proof/Machine/Support.lean ====
section
/-! DEFINITION. The support generator and its sorter (41_support_generator.md): SUP.GEN. -/

namespace Sys2Proof.Machine

/-- `key[i] = (zext_64(PERM[i]) << 31) | i` (R122). -/
def compositeKey (perm : List Word) (i : Nat) : Key :=
  ((cell perm i).setWidth 64 <<< 31) ||| BitVec.ofNat 64 i

/-- The composite keys of all PERM_LEN indices, in index order (R122). -/
def compositeKeys (p : Params) (perm : List Word) : List Key := (List.range p.permLen).map (compositeKey perm)

/-- `key` in ascending order as unsigned integers (R123). Any sorter gives this arrangement, the keys being distinct
(92_eei_decisions.md D25; log 16). -/
def sortedKeys (p : Params) (perm : List Word) : List Key :=
  (compositeKeys p perm).insertionSort (fun x y => x.toNat ≤ y.toNat)

/-- `PERM[r] <- zext_32(skey[r] & GFMASK)` for every `r` in 0..PERM_LEN (R124). -/
def permOverwrite (p : Params) (skey : List Key) (perm : List Word) : List Word :=
  loopUp p.permLen (fun r b => setCell b r (((cell skey r).setWidth 13 &&& p.gfmask).setWidth 32)) perm

/-- `L[i] <- gf_bitrev(PERM[i])` for every `i` in 0..SYS_N (R125). -/
def supportFill (p : Params) (perm : List Word) (l : List Elem) : List Elem :=
  loopUp p.sysN (fun i b => setCell b i (gfBitrev p ((cell perm i).setWidth 13))) l

/-- The effect of SUP.GEN (R126). -/
def supGen (s : State) : State :=
  let perm := permOverwrite s.params (sortedKeys s.params s.mem.perm) s.mem.perm
  (s.setPerm perm).setL (supportFill s.params perm s.mem.l)

/-- `SUP.GEN` (R126); it checks nothing and cannot fail (R129). -/
def execSupGen (s : State) : Host.Outcome State Fault Refusal := .next (supGen s)

end Sys2Proof.Machine
end

