-- ==== Sys2Proof/Machine/Keygen.lean ====
section
/-! DEFINITION. The key serializer and the whole key generation (45_serializer_and_keygen.md): PK.SER, PK.GEN. -/

namespace Sys2Proof.Machine

/-- `PK[row * PK_ROW_BYTES + c] <- MAT[row][PK_NROWS / 8 + c]` for every row and every `c` in 0..PK_ROW_BYTES (R211). -/
def serialize (p : Params) (mat pk : List Byte) : List Byte :=
  loopUp p.pkNrows (fun row b =>
    loopUp p.pkRowBytes (fun c b => setCell b (row * p.pkRowBytes + c) (matGet p mat row (p.pkNrows / 8 + c))) b) pk

/-- The effect of PK.SER (R212): the bare copy, which looks neither at FAIL nor at what MAT holds. -/
def pkSer (s : State) : State := s.setPk (serialize s.params s.mem.mat s.mem.pk)

/-- `PK.SER` (R212). -/
def execPkSer (s : State) : Host.Outcome State Fault Refusal := .next (pkSer s)

/-- PK.GEN up to and including its RED.RUN stage (R214, R215). -/
def pkGenReduced (s : State) : State := redRun (matBuild (rootEval (supGen (skLoadg s))))

/-- The effect of PK.GEN (R215): the stages in order, PK.SER only when FAIL = 0. -/
def pkGen (s : State) : State :=
  let r := pkGenReduced s
  if r.fail = false then pkSer r else r

/-- `PK.GEN` (R215). -/
def execPkGen (s : State) : Host.Outcome State Fault Refusal := .next (pkGen s)

end Sys2Proof.Machine
end

