-- ==== Sys2Proof/Machine/Dispatch.lean ====
section
/-! DEFINITION. One arm per command of 30_encoding.md R83. -/

namespace Sys2Proof.Machine

def exec (i : Instr) (s : State) : Host.Outcome State Fault Refusal :=
  match i with
  | .gfMul a b => Sys2Proof.Machine.execGfMul a b s
  | .gfInv a => Sys2Proof.Machine.execGfInv a s
  | .gfBitrev a => Sys2Proof.Machine.execGfBitrev a s
  | .skLoadg => Sys2Proof.Machine.execSkLoadg s
  | .supGen => Sys2Proof.Machine.execSupGen s
  | .rootEval => Sys2Proof.Machine.execRootEval s
  | .matBuild => Sys2Proof.Machine.execMatBuild s
  | .redRun => Sys2Proof.Machine.execRedRun s
  | .pkSer => Sys2Proof.Machine.execPkSer s
  | .pkGen => Sys2Proof.Machine.execPkGen s

end Sys2Proof.Machine
end

