-- ==== Sys2Proof/Machine/Step.lean ====
section
/-! DEFINITION. One step: the next item of the run (70_reset_and_hazards.md R273). The unit fetches nothing; the host
presents command words one at a time (10_state.md R33). -/

namespace Sys2Proof.Machine

/-- A command word issued by the host: executed, or refused when it names no command (30_encoding.md R84, R85). -/
def issue (w : Word) (s : State) : Host.Outcome State Fault Refusal :=
  match decode w with
  | .ok i => exec i s
  | .error e => .refused (.undefinedWord w e)

/-- A command word issued by the host and abandoned by a reset that arrives while it runs (70_reset_and_hazards.md
R260). -/
def issueThenReset (w : Word) (s : State) : Host.Outcome State Fault Refusal :=
  match decode w with
  | .ok _ => .next (resetUnit s)
  | .error e => .refused (.undefinedWord w e)

/-- One item of the run on the state in which the host has it behind it. The index of the next command advances by
exactly 1 after every command (10_state.md R33). -/
def runMove (m : HostMove) (s : State) : Host.Outcome State Fault Refusal :=
  match m with
  | .command w => issue w { s with index := s.index + 1 }
  | .hostWrite sp idx v => hostWrite sp idx v s
  | .hostRead sp idx => hostRead sp idx s
  | .hostReadReg r => hostReadReg r s
  | .reset => .next (resetUnit s)
  | .resetDuring w => issueThenReset w { s with index := s.index + 1 }

/-- One step. With nothing pending the unit is idle and holds its state (10_state.md R46, 60_exceptions.md R250; log 6). -/
def step (s : State) : Host.Outcome State Fault Refusal :=
  match s.pending with
  | [] => .next s
  | m :: rest => runMove m { s with pending := rest }

/-- The host issues the word of `nbits` bits with value `w` next (10_state.md R33; log 5, log 23). -/
def State.withFetchWord (s : State) (nbits w : Nat) : State :=
  { s with pending := .command (BitVec.ofNat 32 (w % 2 ^ nbits)) :: s.pending }

end Sys2Proof.Machine
end

