-- ==== Sys2Proof/WellFormed.lean ====
section
/-! DEFINITION. What is checked before a machine runs: a line of assembler (30_encoding.md R87) and a parameter set
(00_scope.md R9, R10). A command itself needs no check: its operands are 13-bit immediates by their type (R82). -/

namespace Sys2Proof

/-! ## Assembler lines (R87) -/

/-- The operations, in the order of R83. -/
def Opcode.all : List Opcode :=
  [.gfMul, .gfInv, .gfBitrev, .skLoadg, .supGen, .rootEval, .matBuild, .redRun, .pkSer, .pkGen]

/-- The operation a mnemonic names, if any. -/
def Opcode.ofMnemonic (m : String) : Option Opcode := Opcode.all.find? (fun o => o.mnemonic == m)

/-- How many operands an operation takes (R87). -/
def Opcode.arity : Opcode → Nat
  | .gfMul => 2
  | .gfInv => 1
  | .gfBitrev => 1
  | .skLoadg => 0
  | .supGen => 0
  | .rootEval => 0
  | .matBuild => 0
  | .redRun => 0
  | .pkSer => 0
  | .pkGen => 0

/-- "An operand must be in `0 .. 0x1FFF`; a larger number is an assembly error, not a masked value" (R87). -/
def operandFits (n : Nat) : Bool := n ≤ 0x1FFF

/-- A line names a command, gives it its number of operands, and every operand fits (R87). -/
def AsmLine.wellFormed (x : AsmLine) : Bool :=
  match Opcode.ofMnemonic x.mnemonic with
  | none => false
  | some o => x.operands.length == o.arity && x.operands.all operandFits

/-- The command a line stands for; `none` is an assembly error (R87). The first operand of GF.MUL goes to field A, the
second to field B. -/
def AsmLine.assemble (x : AsmLine) : Option Instr :=
  if x.wellFormed then
    match Opcode.ofMnemonic x.mnemonic, x.operands with
    | some .gfMul, [a, b] => some (.gfMul (BitVec.ofNat 13 a) (BitVec.ofNat 13 b))
    | some .gfInv, [a] => some (.gfInv (BitVec.ofNat 13 a))
    | some .gfBitrev, [a] => some (.gfBitrev (BitVec.ofNat 13 a))
    | some .skLoadg, [] => some .skLoadg
    | some .supGen, [] => some .supGen
    | some .rootEval, [] => some .rootEval
    | some .matBuild, [] => some .matBuild
    | some .redRun, [] => some .redRun
    | some .pkSer, [] => some .pkSer
    | some .pkGen, [] => some .pkGen
    | _, _ => none
  else none

/-- The line that writes a command (R87). -/
def Instr.asmLine (i : Instr) : AsmLine := { mnemonic := i.opcode.mnemonic, operands := i.operands }

/-! ## Parameter sets (R9, R10) -/

/-- Long division over GF(2) by `d`, `k` quotient bits: the remainder of `a` when `a < 2 ^ (k + d.log2)`. -/
def polyRem (d : Nat) : Nat → Nat → Nat
  | 0, a => a
  | k + 1, a => polyRem d k (if a.testBit (k + d.log2) then a ^^^ (d <<< k) else a)

/-- `poly` has degree exactly `m`: bit `m` is its highest set bit (R9). -/
def polyDegreeIs (m poly : Nat) : Bool := 2 ^ m ≤ poly && poly < 2 ^ (m + 1)

/-- No polynomial of degree 1 to `m / 2` divides `poly`, which for a `poly` of degree `m` is irreducibility (R9). -/
def polyIrreducible (m poly : Nat) : Bool :=
  (List.range (2 ^ (m / 2 + 1))).all (fun d => d < 2 || polyRem d (m + 1 - d.log2) poly != 0)

/-- The validity conditions of a parameter set (R10), FIELD_POLY's among them (R9: degree GFBITS, bit 0 set,
irreducible). -/
def Params.wellFormed (p : Params) : Bool :=
  1 ≤ p.gfbits && p.gfbits ≤ 13
    && p.sysN ≤ 2 ^ p.gfbits
    && p.sysN % 8 == 0
    && p.pkNrows % 8 == 0
    && p.pkNrows ≤ p.sysN
    && polyDegreeIs p.gfbits p.fieldPoly
    && p.fieldPoly.testBit 0
    && polyIrreducible p.gfbits p.fieldPoly

end Sys2Proof
end

