-- ==== Sys2Proof/Safety.lean ====
section
/-! DEFINITION. What counts as a safe state and a safe run, in the terms the statements use. -/

namespace Sys2Proof.Machine

/-- The invariant of the machine: a valid parameter set (00_scope.md R10), the memory in form (20_memory.md R50,
40_field_arithmetic.md R100), FR an element (10_state.md R22), STATUS one of its two values (10_state.md R31). -/
structure State.Inv (s : State) : Prop where
  params : s.params.wellFormed = true
  memory : Memory.wf s.params s.mem
  fr : elemOk s.params s.fr
  status : s.status = 0x00000000#32 ∨ s.status = 0xFFFFFFFF#32

/-- A host move the model gives a meaning: a word that names a command (30_encoding.md R85), an access in range
(20_memory.md R56), a register read, a reset between commands. A reset during a command is "assumed never to happen" in
a run a claim speaks of (70_reset_and_hazards.md R274). -/
def HostMove.legal (p : Params) : HostMove → Bool
  | .command w => match decode w with
    | .ok _ => true
    | .error _ => false
  | .hostWrite sp idx _ => idx < p.cells sp
  | .hostRead sp idx => idx < p.cells sp
  | .hostReadReg _ => true
  | .reset => true
  | .resetDuring _ => false

/-- Every item of the run that is left is legal. -/
def State.runLegal (s : State) : Bool := s.pending.all (HostMove.legal s.params)

/-! ## The access table (10_state.md R41) -/

/-- The buffers a command reads before it writes them (R41, the entries with an R). -/
def opcodeReads : Opcode → List Space
  | .gfMul => []
  | .gfInv => []
  | .gfBitrev => []
  | .skLoadg => [.sk]
  | .supGen => [.perm]
  | .rootEval => [.g, .l]
  | .matBuild => [.l, .inv]
  | .redRun => [.mat]
  | .pkSer => [.mat]
  | .pkGen => [.sk, .perm]

/-- The buffers a command writes, every element, on every execution (R41, the entries with a W). PK.GEN's PK, written on
success only (`W*`), is not among them. -/
def opcodeWrites : Opcode → List Space
  | .gfMul => []
  | .gfInv => []
  | .gfBitrev => []
  | .skLoadg => [.g]
  | .supGen => [.perm, .l]
  | .rootEval => [.inv]
  | .matBuild => [.inv, .mat]
  | .redRun => [.mat]
  | .pkSer => [.pk]
  | .pkGen => [.g, .perm, .l, .inv, .mat]

/-- The commands that write FR (R22, R41). -/
def opcodeWritesFr (o : Opcode) : Bool := o == .gfMul || o == .gfInv || o == .gfBitrev

/-- The commands that write STATUS (R32, R41). -/
def opcodeWritesStatus (o : Opcode) : Bool := o == .redRun || o == .pkGen

/-- Two memories hold the same buffer `sp`. -/
def Memory.same (sp : Space) (m m' : Memory) : Prop :=
  match sp with
  | .sk => m.sk = m'.sk
  | .g => m.g = m'.g
  | .perm => m.perm = m'.perm
  | .l => m.l = m'.l
  | .inv => m.inv = m'.inv
  | .mat => m.mat = m'.mat
  | .pk => m.pk = m'.pk

/-! ## The matrix as bits, and the reducer at bit level (44_systematic_reducer.md R198) -/

/-- `M[r][n]` of a matrix written as rows of bits (R198). -/
def bitAt (m : List (List Bool)) (r n : Nat) : Bool := (m.getD r []).getD n false

/-- Row `x` added to row `y` over GF(2): `M[y][n] <- M[y][n] ^ M[x][n]` for every column (R198). -/
def bitAddRow (m : List (List Bool)) (x y : Nat) : List (List Bool) :=
  m.set y (List.zipWith (fun a b => a ^^ b) (m.getD y []) (m.getD x []))

/-- Pass 1 at bit level (R198): row `k` is added where `M[row][row] != M[k][row]`. -/
def bitPass1 (rows row : Nat) (m : List (List Bool)) : List (List Bool) :=
  loopUp (rows - (row + 1)) (fun t m =>
    if bitAt m row row != bitAt m (row + 1 + t) row then bitAddRow m (row + 1 + t) row else m) m

/-- Pass 3 at bit level (R198): row `row` is added to every other row with a 1 in the pivot column. -/
def bitPass3 (rows row : Nat) (m : List (List Bool)) : List (List Bool) :=
  loopUp rows (fun k m => if k ≠ row ∧ bitAt m k row = true then bitAddRow m row k else m) m

/-- The pivot steps of `n` rows from `row` on at bit level (R198): whether all succeeded, and the matrix at the end. -/
def bitReduceFrom (rows : Nat) : Nat → Nat → List (List Bool) → Bool × List (List Bool)
  | 0, _, m => (true, m)
  | n + 1, row, m =>
    let m1 := bitPass1 rows row m
    if bitAt m1 row row = false then (false, m1) else bitReduceFrom rows n (row + 1) (bitPass3 rows row m1)

/-- MAT's bytes opened up: PK_NROWS rows of SYS_N bits (10_state.md R39). -/
def bitRows (p : Params) (mat : List Byte) : List (List Bool) :=
  (List.range p.pkNrows).map (fun r => (List.range p.sysN).map (matBit p mat r))

/-- Whether a reduction succeeded. -/
def PivotResult.ok : PivotResult → Bool
  | .done _ => true
  | .nonSystematic _ => false

/-- The leading PK_NROWS bit columns form the identity, said in bytes (44_systematic_reducer.md R191). -/
def systematic (p : Params) (mat : List Byte) : Prop :=
  ∀ r c, r < p.pkNrows → c < p.pkNrows / 8 → matGet p mat r c = if c = r / 8 then 1#8 <<< (r % 8) else 0x00#8

/-- A block of columns of MAT as a matrix over GF(2). -/
def bitBlock (p : Params) (mat : List Byte) (cols : Nat) : Matrix (Fin p.pkNrows) (Fin cols) (ZMod 2) :=
  Matrix.of fun r n => if matBit p mat r n then 1 else 0

end Sys2Proof.Machine
end

