-- ==== Sys2Proof/Certificates/Slice0/Obligations.lean ====
section
/-! DEFINITION. The statements for the provers. Each docstring names the rule of spec/ it formalises. A rule the spec marks
[derived] is its own inference, and a statement of one has basis 'derived' in OBLIGATIONS.json; so has a statement with a
clause that is the model's choice, whose docstring names the log entry. `s.Inv` (Safety.lean) says that the parameter set is
valid (R10), the buffers have their sizes and hold elements (R50, R100) and STATUS is one of its two values (R31);
EveryStepKeepsTheInvariant and ResetMeetsTheInvariant state that runs stay in it. -/

open Sys2Proof Sys2Proof.Machine

/-! ## Encoding (30_encoding.md) -/

/-- Every command is read back from its own word, whatever its operands (R81, R82, R83). -/
def Obligations.DecodeOfEncodeIsTheCommand : Prop := ∀ i : Instr, decode (encode i) = .ok i

/-- A word that names a command is that command's word: no word has a second reading and no bit is ignored (R81, R84). -/
def Obligations.EncodeOfDecodeIsTheWord : Prop := ∀ (w : Word) (i : Instr), decode w = .ok i → encode i = w

/-- R84: the word is the row's command, with A = cmd[12:0] and B = cmd[25:13] (R82), exactly when it satisfies the row's
mask and match; every other word is undefined; the rows are pairwise disjoint. -/
def Obligations.DecodingFollowsMaskAndMatch : Prop :=
  (∀ (o : Opcode) (w : Word), w &&& o.maskBits = o.matchBits →
      decode w = .ok (o.instr (w.extractLsb' 0 13) (w.extractLsb' 13 13))) ∧
    (∀ w : Word, (∀ o : Opcode, w &&& o.maskBits ≠ o.matchBits) → ∃ e, decode w = .error e) ∧
    (∀ (o o' : Opcode) (w : Word), w &&& o.maskBits = o.matchBits → w &&& o'.maskBits = o'.matchBits → o = o')

/-- R85: a word whose OP is reserved, or which has a 1 in a "must be 0" position of its format (R81), is refused, so no
state follows; the all-zero and the all-ones words are such words. -/
def Obligations.ReservedAndIllegalWordsAreRefused : Prop :=
  (∀ (s : State) (w : Word) (rest : List HostMove), s.pending = .command w :: rest →
      (w.extractLsb' 28 4 = 0x0#4 ∨ 0xB#4 ≤ w.extractLsb' 28 4 ∨
        (w.extractLsb' 28 4 = 0x1#4 ∧ w.extractLsb' 26 2 ≠ 0#2) ∨
        (0x2#4 ≤ w.extractLsb' 28 4 ∧ w.extractLsb' 28 4 ≤ 0x3#4 ∧ w.extractLsb' 13 15 ≠ 0#15) ∨
        (0x4#4 ≤ w.extractLsb' 28 4 ∧ w.extractLsb' 28 4 ≤ 0xA#4 ∧ w.extractLsb' 0 28 ≠ 0#28)) →
      ∃ e, step s = .refused (.undefinedWord w e)) ∧
    ((0x00000000#32).extractLsb' 28 4 = 0x0#4 ∧ 0xB#4 ≤ (0xFFFFFFFF#32).extractLsb' 28 4)

/-- Words written out from the tables of R81 and R83 decode to the commands they stand for. -/
def Obligations.WordsOfTheOpcodeMapDecode : Prop :=
  decode 0x11579234#32 = .ok (.gfMul 0x1234 0x0ABC) ∧ decode 0x20001FFF#32 = .ok (.gfInv 0x1FFF) ∧
    decode 0x30001234#32 = .ok (.gfBitrev 0x1234) ∧ decode 0x40000000#32 = .ok .skLoadg ∧
    decode 0x50000000#32 = .ok .supGen ∧ decode 0x60000000#32 = .ok .rootEval ∧
    decode 0x70000000#32 = .ok .matBuild ∧ decode 0x80000000#32 = .ok .redRun ∧
    decode 0x90000000#32 = .ok .pkSer ∧ decode 0xA0000000#32 = .ok .pkGen

/-- R87: a command's own line assembles to it, a line that assembles is that line, and an operand above 0x1FFF is an
assembly error. That a line is split into mnemonic and numbers already is the model's choice (log 21). -/
def Obligations.AssemblerLinesStandForOneCommand : Prop :=
  (∀ i : Instr, i.asmLine.assemble = some i) ∧
    (∀ (x : AsmLine) (i : Instr), x.assemble = some i → x = i.asmLine) ∧
    (∀ x : AsmLine, (∃ n ∈ x.operands, 0x1FFF < n) → x.assemble = none)

/-! ## Parameters (00_scope.md) -/

/-- R8: the values of the parameter table. FIELD_POLY's 0x201B is the spec's default, which it marks as general
knowledge (log 1). -/
def Obligations.HardwareParameterValues : Prop :=
  Params.hw.gfbits = 13 ∧ Params.hw.gfmask = 0x1FFF#13 ∧ Params.hw.sysN = 8192 ∧ Params.hw.sysT = 128 ∧
    Params.hw.pkNrows = 1664 ∧ Params.hw.rowBytes = 1024 ∧ Params.hw.pkRowBytes = 816 ∧ Params.hw.pkBytes = 1357824 ∧
    Params.hw.permLen = 8192 ∧ Params.hw.skBytes = 256 ∧ Params.hw.fieldPoly = 0x201B ∧
    Params.hw.wellFormed = true ∧ State.reset.params = Params.hw

/-! ## Steps (10_state.md R33, 70_reset_and_hazards.md R273) -/

/-- A command word the host issues that names a command runs exactly that command, with the run's item behind it and the
index of the next command advanced by 1 (R33, R84). -/
def Obligations.StepRunsTheDecodedCommand : Prop :=
  ∀ (s : State) (w : Word) (rest : List HostMove) (i : Instr), s.pending = .command w :: rest → decode w = .ok i →
    step s = exec i { s with pending := rest, index := s.index + 1 }

/-- R33: the index starts at 0 and advances by exactly 1 after every command, whatever its result; the run's item is
consumed; a host access leaves the index and the rest of the run. That a reset between commands leaves both is the model's
choice (log 11). -/
def Obligations.CommandIndexAdvancesByOne : Prop :=
  State.reset.index = 0 ∧
    (∀ (s t : State) (w : Word) (rest : List HostMove), s.pending = .command w :: rest → step s = .next t →
      t.index = s.index + 1 ∧ t.pending = rest) ∧
    (∀ (s t : State) (m : HostMove) (rest : List HostMove), s.pending = m :: rest → step s = .next t →
      (∀ w, m ≠ .command w ∧ m ≠ .resetDuring w) → t.index = s.index ∧ t.pending = rest)

/-- With nothing pending the unit is idle and holds its state (R46, R250); that this is a step of its own is the model's
choice (log 6). -/
def Obligations.IdleUnitHoldsItsState : Prop := ∀ s : State, s.pending = [] → step s = .next s

/-- R271: every command terminates, for every state. -/
def Obligations.EveryCommandTerminates : Prop := ∀ (i : Instr) (s : State), ∃ t, exec i s = .next t

/-- R273: a run of legal moves goes on to its end, and one that contains a refused word after legal moves has no final
state. That steps go on past the end of a run, with the same state, is the model's choice (log 6). -/
def Obligations.RunsOfLegalMovesComplete : Prop :=
  (∀ s : State, s.runLegal = true → ∀ k, ∃ t, Host.Core.run Sys2Proof.core k s = .next t) ∧
    (∀ s : State, s.runLegal = true → ∃ t, Host.Core.run Sys2Proof.core s.pending.length s = .next t ∧ t.pending = []) ∧
    (∀ (s : State) (pre post : List HostMove) (w : Word) (e : DecodeError),
      s.pending = pre ++ .command w :: post → pre.all (HostMove.legal s.params) = true → decode w = .error e →
      ∀ k, pre.length < k → Host.Core.run Sys2Proof.core k s = .refused (.undefinedWord w e))

/-! ## Host accesses and reset (20_memory.md R56, R58; 70_reset_and_hazards.md R260) -/

/-- R58: HostWrite stores one cell (`v & GFMASK` to G, L and INV, `v & 0xFFFFFFFF` to PERM, a byte to a byte space),
HostRead and HostReadReg return one cell or register, and no read changes the unit. That what is returned is appended to
State.replies, FR and narrower cells zero-extended to 32 bits, is the model's choice (log 7); a value that does not fit a
byte space's cell is HostByteWritesKeepTheLowByte's. -/
def Obligations.HostAccessesMoveOneCell : Prop :=
  ∀ (s : State) (rest : List HostMove), s.Inv →
    (∀ sp idx v, s.pending = .hostWrite sp idx v :: rest → idx < s.params.cells sp →
      (sp = .sk ∨ sp = .mat ∨ sp = .pk → v < 2 ^ 8) →
      ∃ m, step s = .next { s with pending := rest, mem := m } ∧
        ∀ sp' idx', (m.load sp' idx').toNat =
          if sp' = sp ∧ idx' = idx then
            (if sp = .g ∨ sp = .l ∨ sp = .inv then v % 2 ^ s.params.gfbits else v % 2 ^ 32)
          else (s.mem.load sp' idx').toNat) ∧
    (∀ sp idx, s.pending = .hostRead sp idx :: rest → idx < s.params.cells sp →
      step s = .next { s with pending := rest, replies := s.replies ++ [.cell sp idx (s.mem.load sp idx)] }) ∧
    (s.pending = .hostReadReg .fr :: rest →
      step s = .next { s with pending := rest, replies := s.replies ++ [.reg .fr (s.fr.setWidth 32)] }) ∧
    (s.pending = .hostReadReg .status :: rest →
      step s = .next { s with pending := rest, replies := s.replies ++ [.reg .status s.status] })

/-- A host write of any value to a byte space stores its low 8 bits in the one cell and changes no other. The model's choice
for values that do not fit a byte (log 10, from 92_eei_decisions.md D20: "masked to the element width"). -/
def Obligations.HostByteWritesKeepTheLowByte : Prop :=
  ∀ (s : State) (rest : List HostMove) (sp : Space) (idx v : Nat), s.Inv → (sp = .sk ∨ sp = .mat ∨ sp = .pk) →
    s.pending = .hostWrite sp idx v :: rest → idx < s.params.cells sp →
    ∃ m, step s = .next { s with pending := rest, mem := m } ∧
      ∀ sp' idx', (m.load sp' idx').toNat = if sp' = sp ∧ idx' = idx then v % 2 ^ 8 else (s.mem.load sp' idx').toNat

/-- R56: a host access outside a space's index range has no meaning and is refused. -/
def Obligations.HostAccessOutOfRangeIsRefused : Prop :=
  ∀ (s : State) (rest : List HostMove) (sp : Space) (idx v : Nat), s.params.cells sp ≤ idx →
    (s.pending = .hostWrite sp idx v :: rest → step s = .refused (.hostIndexOutOfRange sp idx)) ∧
      (s.pending = .hostRead sp idx :: rest → step s = .refused (.hostIndexOutOfRange sp idx))

/-- R44: reset sets STATUS to 0, FAIL = 0; the first reset and any later one. -/
def Obligations.ResetClearsStatus : Prop :=
  State.reset.status = 0x00000000#32 ∧ State.reset.fail = false ∧
    ∀ (s : State) (rest : List HostMove), s.pending = .reset :: rest →
      ∃ t, step s = .next t ∧ t.status = 0x00000000#32 ∧ t.fail = false

/-- R260: a reset that arrives while a command runs abandons the command and leaves what any reset leaves. Only the
host's count of issued commands tells the two apart (log 11). -/
def Obligations.ResetDuringACommandAbandonsIt : Prop :=
  ∀ (s s' : State) (rest : List HostMove) (w : Word) (i : Instr), s.pending = .resetDuring w :: rest →
    decode w = .ok i → s' = { s with pending := .reset :: rest } →
    ∃ t, step s' = .next t ∧ step s = .next { t with index := s.index + 1 }

/-! ## Invariants -/

/-- The reset state of every valid parameter set, the hardware's among them, meets the invariant, whatever the free
values of R45 are (log 3). -/
def Obligations.ResetMeetsTheInvariant : Prop :=
  State.reset.Inv ∧ ∀ p : Params, p.wellFormed = true → (State.initial p).Inv

/-- From every state that meets it, a step of any kind keeps the invariant: the buffers keep their sizes (R11, R50), every
element stays in 0 .. GFMASK (R100), STATUS stays one of its two values (R31). -/
def Obligations.EveryStepKeepsTheInvariant : Prop := ∀ s t : State, s.Inv → step s = .next t → t.Inv

/-- The parameter set is fixed for a machine (R8): no step changes it (log 2). -/
def Obligations.EveryStepKeepsTheParameters : Prop := ∀ s t : State, step s = .next t → t.params = s.params

/-- R41: a command leaves every buffer and register its row does not mark W as it was, and the host's state too; PK.GEN
writes PK only when the reduction succeeds. -/
def Obligations.CommandsWriteOnlyWhatTheTableSays : Prop :=
  ∀ (i : Instr) (s t : State), exec i s = .next t →
    (∀ sp, sp ∉ opcodeWrites i.opcode → ¬ (i.opcode = .pkGen ∧ sp = .pk ∧ t.fail = false) → Memory.same sp t.mem s.mem) ∧
      (opcodeWritesFr i.opcode = false → t.fr = s.fr) ∧ (opcodeWritesStatus i.opcode = false → t.status = s.status) ∧
      t.params = s.params ∧ t.pending = s.pending ∧ t.index = s.index ∧ t.replies = s.replies ∧ t.draws = s.draws

/-- R41, R45: what a command writes is a function of the buffers its row marks R alone: every buffer it writes is written
whole, so nothing of its former contents, nor of any other buffer or register, survives in it. -/
def Obligations.CommandsDependOnlyOnWhatTheyRead : Prop :=
  ∀ (i : Instr) (s s' : State), s.Inv → s'.Inv → s.params = s'.params →
    (∀ sp ∈ opcodeReads i.opcode, Memory.same sp s.mem s'.mem) →
    ∃ t t', exec i s = .next t ∧ exec i s' = .next t' ∧
      (∀ sp ∈ opcodeWrites i.opcode, Memory.same sp t.mem t'.mem) ∧
      (opcodeWritesFr i.opcode = true → t.fr = t'.fr) ∧ (opcodeWritesStatus i.opcode = true → t.status = t'.status) ∧
      (i.opcode = .pkGen → t.status = 0x00000000#32 → t.mem.pk = t'.mem.pk)

/-- R32: RED.RUN writes FAIL 0 when it completes all pivots and 1 when it raises NonSystematic, PK.GEN writes it through
its RED.RUN stage, reset writes 0, no other command writes it, and no command's behaviour depends on it. -/
def Obligations.FailIsWrittenByTheReductionOnly : Prop :=
  (∀ s : State, ∃ t, exec .redRun s = .next t ∧
      t.fail = !(reduce s.params s.mem.mat).ok) ∧
    (∀ s : State, ∃ t u, exec .redRun (matBuild (rootEval (supGen (skLoadg s)))) = .next u ∧ exec .pkGen s = .next t ∧
      t.fail = u.fail) ∧
    (State.reset.fail = false ∧ ∀ s : State, (resetUnit s).fail = false) ∧
    (∀ (i : Instr) (s : State), i ≠ .redRun → i ≠ .pkGen → ∃ t, exec i s = .next t ∧ t.status = s.status) ∧
    (∀ (i : Instr) (s : State) (v : Word), ∃ t, exec i s = .next t ∧
      exec i { s with status := v } = .next (if i = .redRun ∨ i = .pkGen then t else { t with status := v }))

/-- R22: FR is written by the three field commands with their result, by no other command, and no command reads it. -/
def Obligations.FieldResultRegisterIsWriteOnlyToCommands : Prop :=
  ∀ (i : Instr) (s : State) (v : Elem), ∃ t, exec i s = .next t ∧
    (opcodeWritesFr i.opcode = false → t.fr = s.fr) ∧
    exec i { s with fr := v } = .next (if opcodeWritesFr i.opcode = true then t else { t with fr := v })

/-! ## Field arithmetic (40_field_arithmetic.md) -/

/-- R105: the laws of gf_mul, for every valid FIELD_POLY. -/
def Obligations.FieldMultiplicationLaws : Prop :=
  ∀ (p : Params) (a b c : Elem), p.wellFormed = true → elemOk p a → elemOk p b → elemOk p c →
    gfMul p a b = gfMul p b a ∧ gfMul p (gfMul p a b) c = gfMul p a (gfMul p b c) ∧ gfMul p a 1 = a ∧ gfMul p a 0 = 0 ∧
      gfMul p a (b ^^^ c) = gfMul p a b ^^^ gfMul p a c ∧ (gfMul p a b = 0 → a = 0 ∨ b = 0)

/-- R104: the value of gf_mul is the unique representative of `a(x) * b(x) mod FIELD_POLY(x)`: it differs from the
carry-less product by a multiple of FIELD_POLY, it has no bit at or above GFBITS, and nothing else is such a value. -/
def Obligations.FieldProductIsTheUniqueResidue : Prop :=
  ∀ (p : Params) (a b : Elem), p.wellFormed = true → elemOk p a → elemOk p b →
    (∃ q, clmul p.gfbits a.toNat b.toNat = (gfMul p a b).toNat ^^^ clmul (p.gfbits + 1) q p.fieldPoly) ∧
      elemOk p (gfMul p a b) ∧
      ∀ r q, r < 2 ^ p.gfbits → clmul p.gfbits a.toNat b.toNat = r ^^^ clmul (p.gfbits + 1) q p.fieldPoly →
        r = (gfMul p a b).toNat

/-- R106: gf_inv is the unique inverse of a nonzero element and 0 at 0, which raises nothing. -/
def Obligations.FieldInverseIsTheUniqueInverse : Prop :=
  (∀ (p : Params) (a : Elem), p.wellFormed = true → elemOk p a → a ≠ 0 →
      elemOk p (gfInv p a) ∧ gfMul p a (gfInv p a) = 1 ∧ ∀ y, elemOk p y → gfMul p a y = 1 → y = gfInv p a) ∧
    (∀ p : Params, gfInv p 0 = 0) ∧ ∀ s : State, exec (.gfInv 0) s = .next { s with fr := 0 }

/-- R107: gf_inv is the power `2^GFBITS - 2`, the product of that many copies. At GFBITS = 1 the power of 0 is 1, so the
form needs two bits or more there. -/
def Obligations.FieldInverseIsThePower : Prop :=
  ∀ (p : Params) (a : Elem), p.wellFormed = true → 2 ≤ p.gfbits → elemOk p a → gfInv p a = gfPow p a (2 ^ p.gfbits - 2)

/-- R108: gf_bitrev reverses the low GFBITS bits and sets no other, is its own inverse, permutes the elements, and does
not depend on FIELD_POLY. -/
def Obligations.BitReversalIsAnInvolution : Prop :=
  ∀ p : Params, p.gfbits ≤ 13 →
    (∀ (a : Elem) (i : Nat), (gfBitrev p a).getLsbD i = (decide (i < p.gfbits) && a.getLsbD (p.gfbits - 1 - i))) ∧
      (∀ a : Elem, elemOk p a → elemOk p (gfBitrev p a) ∧ gfBitrev p (gfBitrev p a) = a) ∧
      (∀ b : Elem, elemOk p b → ∃ a, elemOk p a ∧ gfBitrev p a = b ∧ ∀ a', elemOk p a' → gfBitrev p a' = b → a' = a) ∧
      ∀ (f : Nat) (a : Elem), gfBitrev { p with fieldPoly := f } a = gfBitrev p a

/-- R110: GF.MUL writes FR with gf_mul of the masked operands and nothing else, with the rule's corner cases and its
example. The example assumes FIELD_POLY = 0x201B (x^13 + x^4 + x^3 + x + 1), which Params.hw has by log 1 (PRESUMED). -/
def Obligations.GfMulWritesTheProduct : Prop :=
  (∀ (s : State) (a b : BitVec 13), exec (.gfMul a b) s =
      .next { s with fr := gfMul s.params (a &&& s.params.gfmask) (b &&& s.params.gfmask) }) ∧
    (∀ (s : State) (a b : BitVec 13), s.params.wellFormed = true →
      ∃ r, exec (.gfMul a b) s = .next { s with fr := r } ∧ exec (.gfMul b a) s = .next { s with fr := r } ∧
        elemOk s.params r ∧ (a &&& s.params.gfmask = 0 ∨ b &&& s.params.gfmask = 0 → r = 0) ∧
        (a &&& s.params.gfmask = 1 → r = b &&& s.params.gfmask) ∧
        (b &&& s.params.gfmask = 1 → r = a &&& s.params.gfmask)) ∧
    (decode 0x12000002#32 = .ok (.gfMul 0x0002 0x1000) ∧
      ∀ s : State, s.params = Params.hw → exec (.gfMul 0x0002 0x1000) s = .next { s with fr := 0x001B })

/-- R111: GF.INV writes FR with gf_inv of the masked operand and nothing else, with the rule's corner cases and its
example. The example assumes FIELD_POLY = 0x201B (x^13 + x^4 + x^3 + x + 1), which Params.hw has by log 1 (PRESUMED). -/
def Obligations.GfInvWritesTheInverse : Prop :=
  (∀ (s : State) (a : BitVec 13), exec (.gfInv a) s =
      .next { s with fr := gfInv s.params (a &&& s.params.gfmask) }) ∧
    (∀ p : Params, p.wellFormed = true → gfInv p 0 = 0 ∧ gfInv p 1 = 1 ∧
      ∀ a : Elem, elemOk p a → gfInv p (gfInv p a) = a) ∧
    (decode 0x20000002#32 = .ok (.gfInv 0x0002) ∧
      ∀ s : State, s.params = Params.hw → exec (.gfInv 0x0002) s = .next { s with fr := 0x100D })

/-- R112: GF.BITREV writes FR with gf_bitrev of the masked operand and nothing else, with the rule's corner cases and its
example. -/
def Obligations.GfBitrevWritesTheReversal : Prop :=
  (∀ (s : State) (a : BitVec 13), exec (.gfBitrev a) s =
      .next { s with fr := gfBitrev s.params (a &&& s.params.gfmask) }) ∧
    (∀ p : Params, p.wellFormed = true → gfBitrev p 0 = 0 ∧ gfBitrev p p.gfmask = p.gfmask ∧
      (gfBitrev p 1).toNat = 2 ^ (p.gfbits - 1) ∧
      ∀ a : Elem, elemOk p a → (∀ i, i < p.gfbits → a.getLsbD i = a.getLsbD (p.gfbits - 1 - i)) → gfBitrev p a = a) ∧
    (decode 0x30001234#32 = .ok (.gfBitrev 0x1234) ∧
      ∀ s : State, s.params = Params.hw → exec (.gfBitrev 0x1234) s = .next { s with fr := 0x0589 })

/-! ## Coefficient load and evaluation (42_goppa_evaluator.md) -/

/-- R142 (with R51, R141): SK.LOADG writes G, and nothing else, with the SYS_T little-endian coefficients masked to
GFBITS bits and the leading 1; with the rule's example. -/
def Obligations.SkLoadgLoadsTheCoefficients : Prop :=
  ∀ s : State, s.Inv → ∃ g, exec .skLoadg s = .next { s with mem := { s.mem with g := g } } ∧
    g.length = s.params.sysT + 1 ∧ cell g s.params.sysT = 1 ∧
    (∀ i, i < s.params.sysT →
      (cell g i).toNat =
        ((cell s.mem.sk (2 * i)).toNat + 2 ^ 8 * (cell s.mem.sk (2 * i + 1)).toNat) % 2 ^ s.params.gfbits) ∧
    (s.params = Params.t16 → s.mem.sk = [0xF1, 0xFF, 0x23, 0xA0] → g = [0x1, 0x3, 0x1])

/-- R144: gf_eval is the value of the polynomial: the sum of `G[k] * a^k` for `k` in 0..SYS_T+1. -/
def Obligations.HornerEvaluatesThePolynomial : Prop :=
  ∀ (p : Params) (g : List Elem) (a : Elem), p.wellFormed = true → (∀ x ∈ g, elemOk p x) → elemOk p a →
    gfEval p g a = loopUp (p.sysT + 1) (fun k r => r ^^^ gfMul p (cell g k) (gfPow p a k)) 0

/-- R146 (with R145): ROOT.EVAL writes INV, and nothing else, with `gf_inv(gf_eval(G, L[i]))`; at `L[i] = 0` the
polynomial's value is `G[0]`, at `L[i] = 1` the exclusive or of all coefficients, and a root gives 0; with the rule's
example. -/
def Obligations.RootEvalWritesTheReciprocals : Prop :=
  (∀ s : State, s.Inv → ∃ inv, exec .rootEval s = .next { s with mem := { s.mem with inv := inv } } ∧
      inv.length = s.params.sysN ∧
      ∀ i, i < s.params.sysN →
        cell inv i = gfInv s.params (gfEval s.params s.mem.g (cell s.mem.l i)) ∧
        (cell s.mem.l i = 0 → gfEval s.params s.mem.g (cell s.mem.l i) = cell s.mem.g 0) ∧
        (cell s.mem.l i = 1 → gfEval s.params s.mem.g (cell s.mem.l i) =
          loopUp (s.params.sysT + 1) (fun k r => r ^^^ cell s.mem.g k) 0) ∧
        (gfEval s.params s.mem.g (cell s.mem.l i) = 0 → cell inv i = 0)) ∧
    gfEval Params.t16 [0x1, 0x3, 0x1] 0x6 = 0xC ∧ gfInv Params.t16 0xC = 0xA

/-- R147: a root of the polynomial at position `i` raises nothing, gives `INV[i] = 0`, and makes bit column `i` zero in
every row after MAT.BUILD. -/
def Obligations.RootGivesAZeroColumn : Prop :=
  ∀ (s : State) (i : Nat), s.Inv → i < s.params.sysN → gfEval s.params s.mem.g (cell s.mem.l i) = 0 →
    ∃ t u, exec .rootEval s = .next t ∧ t.status = s.status ∧ cell t.mem.inv i = 0 ∧
      exec .matBuild t = .next u ∧ ∀ r, r < s.params.pkNrows → matBit s.params u.mem.mat r i = false

/-- R148: a root at a position below PK_NROWS makes the reduction fail; one at or above PK_NROWS need not: there is a
state with such a root, reached through the same stages, on which the reduction succeeds. -/
def Obligations.RootBelowTheRowCountFails : Prop :=
  (∀ (s : State) (i : Nat), s.Inv → i < s.params.pkNrows → gfEval s.params s.mem.g (cell s.mem.l i) = 0 →
      ∃ t u v, exec .rootEval s = .next t ∧ exec .matBuild t = .next u ∧ exec .redRun u = .next v ∧
        v.status = 0xFFFFFFFF#32) ∧
    ∃ (s : State) (i : Nat), s.Inv ∧ s.params.pkNrows ≤ i ∧ i < s.params.sysN ∧
      gfEval s.params s.mem.g (cell s.mem.l i) = 0 ∧
      ∃ t u v, exec .rootEval s = .next t ∧ exec .matBuild t = .next u ∧ exec .redRun u = .next v ∧
        v.status = 0x00000000#32

/-! ## Support generation (41_support_generator.md) -/

/-- R126 (with R122 to R125): SUP.GEN sorts the composite keys, overwrites PERM with the low GFBITS bits of the sorted
keys and L with the bit-reversed entries of PERM, and writes nothing else. Keys are written as numbers: seed word times
2^31 plus index. -/
def Obligations.SupGenSortsTheCompositeKeys : Prop :=
  ∀ s : State, s.Inv → ∃ perm l, exec .supGen s = .next { s with mem := { s.mem with perm := perm, l := l } } ∧
    perm.length = s.params.permLen ∧ l.length = s.params.sysN ∧
    ∃ skey : List Nat,
      skey.Perm ((List.range s.params.permLen).map fun i => (cell s.mem.perm i).toNat * 2 ^ 31 + i) ∧
      skey.Pairwise (· < ·) ∧
      (∀ r, r < s.params.permLen → (cell perm r).toNat = skey.getD r 0 % 2 ^ s.params.gfbits) ∧
      ∀ i, i < s.params.sysN → cell l i = gfBitrev s.params ((cell perm i).setWidth 13)

/-- R127: PERM after SUP.GEN is a permutation of 0 .. PERM_LEN-1 for every seed, in the order "seed word ascending, then
index ascending"; equal seed words leave `PERM[r] = r`. -/
def Obligations.SupGenGivesAPermutation : Prop :=
  ∀ s : State, s.Inv → ∃ t, exec .supGen s = .next t ∧
    (t.mem.perm.map BitVec.toNat).Perm (List.range s.params.permLen) ∧
    (∀ r1 r2, r1 < r2 → r2 < s.params.permLen →
      (cell s.mem.perm (cell t.mem.perm r1).toNat).toNat < (cell s.mem.perm (cell t.mem.perm r2).toNat).toNat ∨
        ((cell s.mem.perm (cell t.mem.perm r1).toNat).toNat = (cell s.mem.perm (cell t.mem.perm r2).toNat).toNat ∧
          (cell t.mem.perm r1).toNat < (cell t.mem.perm r2).toNat)) ∧
    ((∀ i, i < s.params.permLen → cell s.mem.perm i = cell s.mem.perm 0) →
      ∀ r, r < s.params.permLen → (cell t.mem.perm r).toNat = r)

/-- R128: after SUP.GEN the entries of L are pairwise distinct, for every seed; when SYS_N = 2^GFBITS they are all the
field's elements. -/
def Obligations.SupportIsDuplicateFree : Prop :=
  ∀ s : State, s.Inv → ∃ t, exec .supGen s = .next t ∧ t.mem.l.Nodup ∧
    (s.params.sysN = 2 ^ s.params.gfbits → (t.mem.l.map BitVec.toNat).Perm (List.range (2 ^ s.params.gfbits)))

/-- R131: a second SUP.GEN without a new seed is legal and leaves the inverse permutation, and L is recomputed from it. -/
def Obligations.SecondSupGenInvertsThePermutation : Prop :=
  ∀ s : State, s.Inv → ∃ t u, exec .supGen s = .next t ∧ exec .supGen t = .next u ∧
    (∀ i, i < s.params.permLen → (cell u.mem.perm (cell t.mem.perm i).toNat).toNat = i) ∧
    ∀ i, i < s.params.sysN → cell u.mem.l i = gfBitrev s.params ((cell u.mem.perm i).setWidth 13)

/-! ## Matrix building (43_matrix_builder.md) -/

/-- R166 (with R162, R164, R165): MAT.BUILD writes MAT and INV and nothing else; bit `k` of layer `i` at column `n` is bit
`k` of `inv0[n] * L[n]^i`, INV during layer `i` is `inv0[n] * L[n]^i`, and at the end `inv0[n] * L[n]^SYS_T`. -/
def Obligations.MatBuildClosedForm : Prop :=
  ∀ s : State, s.Inv → ∃ mat inv, exec .matBuild s = .next { s with mem := { s.mem with mat := mat, inv := inv } } ∧
    mat.length = s.params.pkNrows * s.params.rowBytes ∧ inv.length = s.params.sysN ∧
    (∀ i k n, i < s.params.sysT → k < s.params.gfbits → n < s.params.sysN →
      matBit s.params mat (i * s.params.gfbits + k) n =
        (gfMul s.params (cell s.mem.inv n) (gfPow s.params (cell s.mem.l n) i)).getLsbD k) ∧
    (∀ i n, i ≤ s.params.sysT → n < s.params.sysN →
      cell (buildLayers s.params s.mem.l i (s.mem.mat, s.mem.inv)).2 n =
        gfMul s.params (cell s.mem.inv n) (gfPow s.params (cell s.mem.l n) i)) ∧
    ∀ n, n < s.params.sysN →
      cell inv n = gfMul s.params (cell s.mem.inv n) (gfPow s.params (cell s.mem.l n) s.params.sysT)

/-- R168: a zero reciprocal gives a zero column; the support value 0 gives the reciprocal in layer 0, zero in every later
layer, and a final 0 (a machine with at least one layer). -/
def Obligations.ZeroColumnsOfTheBuiltMatrix : Prop :=
  ∀ (s : State) (n : Nat), s.Inv → 0 < s.params.sysT → n < s.params.sysN → ∃ t, exec .matBuild s = .next t ∧
    (cell s.mem.inv n = 0 → ∀ r, r < s.params.pkNrows → matBit s.params t.mem.mat r n = false) ∧
    (cell s.mem.l n = 0 → cell t.mem.inv n = 0 ∧
      (∀ k, k < s.params.gfbits → matBit s.params t.mem.mat k n = (cell s.mem.inv n).getLsbD k) ∧
      ∀ r, s.params.gfbits ≤ r → r < s.params.pkNrows → matBit s.params t.mem.mat r n = false)

/-! ## Reduction (44_systematic_reducer.md) -/

/-- R190: RED.RUN completes in one of two ways, writing MAT and STATUS and nothing else: all pivots done and FAIL 0, or
NonSystematic raised and FAIL 1. -/
def Obligations.RedRunEndsInOneOfTwoWays : Prop :=
  ∀ s : State,
    (∃ mat, reduce s.params s.mem.mat = .done mat ∧
        exec .redRun s = .next { s with mem := { s.mem with mat := mat }, status := 0x00000000#32 }) ∨
      ∃ mat, reduce s.params s.mem.mat = .nonSystematic mat ∧
        exec .redRun s = .next { s with mem := { s.mem with mat := mat }, status := 0xFFFFFFFF#32 }

/-- R184: a step of pass 1 adds row `k` exactly when the pivot bits differ, after which the pivot bit is 1; after the pass
the pivot bit is the OR of the column's bits from the pivot row down; the other rows are only read. -/
def Obligations.Pass1GathersThePivot : Prop :=
  ∀ (p : Params) (mat : List Byte) (row : Nat), p.wellFormed = true → mat.length = p.pkNrows * p.rowBytes →
    row < p.pkNrows →
    (∀ k, row < k → k < p.pkNrows →
      (matBit p mat row row ≠ matBit p mat k row →
        matBit p (pass1Step p row k mat) row row = true ∧
          ∀ n, n < p.sysN → matBit p (pass1Step p row k mat) row n = (matBit p mat row n ^^ matBit p mat k n)) ∧
        (matBit p mat row row = matBit p mat k row → pass1Step p row k mat = mat)) ∧
    (matBit p (pass1 p row mat) row row = true ↔ ∃ k, row ≤ k ∧ k < p.pkNrows ∧ matBit p mat k row = true) ∧
    ∀ r c, r ≠ row → r < p.pkNrows → c < p.rowBytes → matGet p (pass1 p row mat) r c = matGet p mat r c

/-- R186: the check of a row fails exactly when every row from it down has a 0 in its column; the failing step added
nothing (R195). -/
def Obligations.PivotCheckFailsOnAZeroColumn : Prop :=
  ∀ (p : Params) (mat : List Byte) (row : Nat), p.wellFormed = true → mat.length = p.pkNrows * p.rowBytes →
    row < p.pkNrows →
    ((∀ k, row ≤ k → k < p.pkNrows → matBit p mat k row = false) ↔ pivotStep p row mat = .nonSystematic mat) ∧
      ((∃ k, row ≤ k ∧ k < p.pkNrows ∧ matBit p mat k row = true) ↔ ∃ m, pivotStep p row mat = .done m)

/-- R187: pass 3 leaves the pivot column with a 1 in the pivot row and 0 in every other row; the pivot row is only read,
and each other row is kept or has the pivot row added. -/
def Obligations.Pass3ClearsThePivotColumn : Prop :=
  ∀ (p : Params) (mat : List Byte) (row : Nat), p.wellFormed = true → mat.length = p.pkNrows * p.rowBytes →
    row < p.pkNrows → matBit p mat row row = true →
    (∀ r, r < p.pkNrows → matBit p (pass3 p row mat) r row = decide (r = row)) ∧
      ∀ r c, r < p.pkNrows → c < p.rowBytes → matGet p (pass3 p row mat) r c =
        if r ≠ row ∧ matBit p mat r row = true then matGet p mat r c ^^^ matGet p mat row c else matGet p mat r c

/-- R192: after the pivot steps of rows 0 .. row have succeeded, every bit column up to `row` is a unit column. -/
def Obligations.EarlierColumnsStayUnitColumns : Prop :=
  ∀ (p : Params) (mat m : List Byte) (row : Nat), p.wellFormed = true → mat.length = p.pkNrows * p.rowBytes →
    row < p.pkNrows → reduceFrom p (row + 1) 0 mat = .done m →
    ∀ n r, n ≤ row → r < p.pkNrows → matBit p m r n = decide (r = n)

/-- R191: on success the leading PK_NROWS columns form the identity matrix. -/
def Obligations.SuccessLeavesSystematicForm : Prop :=
  ∀ s t : State, s.Inv → exec .redRun s = .next t → t.status = 0x00000000#32 →
    ∀ r c, r < s.params.pkNrows → c < s.params.pkNrows / 8 →
      matGet s.params t.mem.mat r c = if c = r / 8 then 1#8 <<< (r % 8) else 0x00#8

/-- R193: RED.RUN succeeds exactly when the leading square block A of MAT is invertible over GF(2), and then the new
matrix M' is the unique one with `A * M' = M`, that is `A^-1 * M`. -/
def Obligations.ReductionSucceedsIffInvertible : Prop :=
  ∀ s : State, s.Inv → ∃ t, exec .redRun s = .next t ∧
    (t.status = 0x00000000#32 ↔ IsUnit (bitBlock s.params s.mem.mat s.params.pkNrows)) ∧
    (t.status = 0xFFFFFFFF#32 ↔ ¬ IsUnit (bitBlock s.params s.mem.mat s.params.pkNrows)) ∧
    (t.status = 0x00000000#32 →
      bitBlock s.params s.mem.mat s.params.pkNrows * bitBlock s.params t.mem.mat s.params.sysN =
        bitBlock s.params s.mem.mat s.params.sysN)

/-- R195: the state after a failure at row `f`: STATUS -1, MAT the complete result of pivot steps 0 .. f-1 and no more,
everything else untouched; `f` is the lowest row whose check fails (R235). -/
def Obligations.FailureLeavesTheLastCompletedStep : Prop :=
  ∀ s t : State, s.Inv → exec .redRun s = .next t → t.status = 0xFFFFFFFF#32 →
    (∃ f, f < s.params.pkNrows ∧ reduceFrom s.params f 0 s.mem.mat = .done t.mem.mat ∧
      ∀ k, f ≤ k → k < s.params.pkNrows → matBit s.params t.mem.mat k f = false) ∧
    t = { s with mem := { s.mem with mat := t.mem.mat }, status := 0xFFFFFFFF#32 }

/-- R199: RED.RUN on a matrix already in systematic form succeeds and ends with its input. -/
def Obligations.ReductionKeepsSystematicForm : Prop :=
  ∀ s : State, s.Inv → systematic s.params s.mem.mat → exec .redRun s = .next { s with status := 0x00000000#32 }

/-- R198: the byte reducer is the bit-level one with the bytes opened up: the same outcome, and the same bits at the end,
after a failure too. -/
def Obligations.ByteReducerRefinesTheBitReducer : Prop :=
  ∀ (p : Params) (mat : List Byte), p.wellFormed = true → mat.length = p.pkNrows * p.rowBytes →
    bitReduceFrom p.pkNrows p.pkNrows 0 (bitRows p mat) = ((reduce p mat).ok, bitRows p (reduce p mat).mat)

/-! ## Serialization and key generation (45_serializer_and_keygen.md) -/

/-- R212 (with R211): PK.SER copies the byte columns of MAT from PK_NROWS / 8 on into PK, row-major, whatever FAIL is, and
writes nothing else; a second PK.SER changes nothing; with PK_NROWS = SYS_N nothing is written. -/
def Obligations.PkSerCopiesTheRightPart : Prop :=
  ∀ s : State, s.Inv → ∃ pk, exec .pkSer s = .next { s with mem := { s.mem with pk := pk } } ∧
    pk.length = s.params.pkBytes ∧
    (∀ row c, row < s.params.pkNrows → c < s.params.pkRowBytes →
      cell pk (row * s.params.pkRowBytes + c) = matGet s.params s.mem.mat row (s.params.pkNrows / 8 + c)) ∧
    exec .pkSer { s with mem := { s.mem with pk := pk } } = .next { s with mem := { s.mem with pk := pk } } ∧
    (s.params.pkNrows = s.params.sysN → exec .pkSer s = .next s)

/-- R213: after a successful reduction and PK.SER, bit `b` of `PK[row * PK_ROW_BYTES + c]` is the entry of T at column
`8c + b`, the reduced matrix's entry at bit column `PK_NROWS + 8c + b`. -/
def Obligations.KeyBitsAreTheEntriesOfT : Prop :=
  ∀ s t : State, s.Inv → exec .redRun s = .next t → t.status = 0x00000000#32 → ∃ u, exec .pkSer t = .next u ∧
    ∀ row c b, row < s.params.pkNrows → c < s.params.pkRowBytes → b < 8 →
      (cell u.mem.pk (row * s.params.pkRowBytes + c)).getLsbD b =
        matBit s.params t.mem.mat row (s.params.pkNrows + 8 * c + b)

/-- R218: PK.GEN is equal, state for state, to the six stage commands, PK.SER left out when STATUS reads -1. -/
def Obligations.PkGenIsTheStageSequence : Prop :=
  ∀ s : State, ∃ t1 t2 t3 t4 t5, exec .skLoadg s = .next t1 ∧ exec .supGen t1 = .next t2 ∧
    exec .rootEval t2 = .next t3 ∧ exec .matBuild t3 = .next t4 ∧ exec .redRun t4 = .next t5 ∧
    exec .pkGen s = if t5.status = 0xFFFFFFFF#32 then .next t5 else exec .pkSer t5

/-- R216: PK.GEN either succeeds, with STATUS 0, MAT in systematic form and PK the T of the reduced matrix, or fails, with
STATUS -1 and no byte of PK written; there is no third outcome. -/
def Obligations.PkGenHasTwoOutcomes : Prop :=
  ∀ s : State, s.Inv → ∃ t, exec .pkGen s = .next t ∧
    ((t.status = 0x00000000#32 ∧ systematic s.params t.mem.mat ∧
        ∀ row c, row < s.params.pkNrows → c < s.params.pkRowBytes →
          cell t.mem.pk (row * s.params.pkRowBytes + c) = matGet s.params t.mem.mat row (s.params.pkNrows / 8 + c)) ∨
      (t.status = 0xFFFFFFFF#32 ∧ t.mem.pk = s.mem.pk))

/-- R217: in both outcomes G holds the masked coefficients and the leading 1, PERM the permutation, L the support, INV
`inv0[n] * L[n]^SYS_T`, MAT what the reduction of the built matrix ends with; SK and FR are never modified. -/
def Obligations.PkGenOverwritesTheWorkingBuffers : Prop :=
  ∀ s : State, s.Inv → ∃ t t1 t2 t3 t4, exec .pkGen s = .next t ∧ exec .skLoadg s = .next t1 ∧
    exec .supGen t1 = .next t2 ∧ exec .rootEval t2 = .next t3 ∧ exec .matBuild t3 = .next t4 ∧
    t.mem.g = t1.mem.g ∧ cell t.mem.g s.params.sysT = 1 ∧
    (∀ i, i < s.params.sysT → (cell t.mem.g i).toNat =
      ((cell s.mem.sk (2 * i)).toNat + 2 ^ 8 * (cell s.mem.sk (2 * i + 1)).toNat) % 2 ^ s.params.gfbits) ∧
    t.mem.perm = t2.mem.perm ∧ (t.mem.perm.map BitVec.toNat).Perm (List.range s.params.permLen) ∧
    (∀ i, i < s.params.sysN → cell t.mem.l i = gfBitrev s.params ((cell t.mem.perm i).setWidth 13)) ∧
    (∀ n, n < s.params.sysN → cell t.mem.inv n =
      gfMul s.params (gfInv s.params (gfEval s.params t.mem.g (cell t.mem.l n)))
        (gfPow s.params (cell t.mem.l n) s.params.sysT)) ∧
    t.mem.mat = (reduce s.params t4.mem.mat).mat ∧ t.mem.sk = s.mem.sk ∧ t.fr = s.fr

/-- R219, R67: for a fixed secret polynomial and a fixed seed the public key is the same on every run, whatever else the
machine holds: the other buffers, the registers, the host's run. -/
def Obligations.KeyDependsOnSecretAndSeedOnly : Prop :=
  ∀ s s' : State, s.Inv → s'.Inv → s.params = s'.params → s.mem.sk = s'.mem.sk → s.mem.perm = s'.mem.perm →
    ∃ t t', exec .pkGen s = .next t ∧ exec .pkGen s' = .next t' ∧ t.status = t'.status ∧
      (t.status = 0x00000000#32 → t.mem.pk = t'.mem.pk)

/-- R236: raising NonSystematic writes STATUS and does nothing else; it ends RED.RUN at the first failing row `f`, on the
matrix after the steps before it (R195); and a key generation that raises it ends there, with the state its RED.RUN stage
left and no byte of PK written. -/
def Obligations.RaisingNonSystematicOnlyWritesStatus : Prop :=
  (∀ s : State, raiseNonSystematic s = { s with status := 0xFFFFFFFF#32 }) ∧
    (∀ s t : State, s.Inv → exec .redRun s = .next t → t.status = 0xFFFFFFFF#32 →
      ∃ f m, f < s.params.pkNrows ∧ reduceFrom s.params f 0 s.mem.mat = .done m ∧
        pivotStep s.params f m = .nonSystematic m ∧ t = raiseNonSystematic { s with mem := { s.mem with mat := m } }) ∧
    ∀ (s t mid : State), exec .pkGen s = .next t → t.status = 0xFFFFFFFF#32 →
      mid = matBuild (rootEval (supGen (skLoadg s))) → exec .redRun mid = .next t ∧ t.mem.pk = s.mem.pk
end

