-- ==== Sys2Proof/Laws/Loops.lean ====
section
/-! SUPPORT. Loops and cells: the induction principle of each loop, reading after writing, and what a loop that writes one
cell a turn leaves. -/

namespace Sys2Proof.Machine

variable {σ : Type} {w : Nat}

/-! ## Loops -/

@[simp] theorem loopUp_zero (f : Nat → σ → σ) (s : σ) : loopUp 0 f s = s := rfl
@[simp] theorem loopUp_succ (n : Nat) (f : Nat → σ → σ) (s : σ) : loopUp (n + 1) f s = f n (loopUp n f s) := rfl
@[simp] theorem loopDown_zero (f : Nat → σ → σ) (s : σ) : loopDown 0 f s = s := rfl
@[simp] theorem loopDown_succ (n : Nat) (f : Nat → σ → σ) (s : σ) :
    loopDown (n + 1) f s = loopDown n f (f n s) := rfl

/-- What holds before an ascending loop and is carried over each turn holds after it. -/
theorem loopUp_induct {f : Nat → σ → σ} {s : σ} (P : Nat → σ → Prop) (n : Nat) (start : P 0 s)
    (turn : ∀ i, i < n → ∀ x, P i x → P (i + 1) (f i x)) : P n (loopUp n f s) := by
  induction n with
  | zero => exact start
  | succ n ih => exact turn n (Nat.lt_succ_self n) _ (ih fun i hi => turn i (Nat.lt_succ_of_lt hi))

/-- What holds before a descending loop and is carried over each turn holds after it. -/
theorem loopDown_induct {f : Nat → σ → σ} {s : σ} (P : Nat → σ → Prop) (n : Nat) (start : P n s)
    (turn : ∀ i, i < n → ∀ x, P (i + 1) x → P i (f i x)) : P 0 (loopDown n f s) := by
  induction n generalizing s with
  | zero => exact start
  | succ n ih =>
    exact ih (turn n (Nat.lt_succ_self n) _ start) fun i hi => turn i (Nat.lt_succ_of_lt hi)

/-- Two ascending loops whose bodies agree in range agree. -/
theorem loopUp_congr {f g : Nat → σ → σ} {n : Nat} (s : σ) (h : ∀ i, i < n → ∀ x, f i x = g i x) :
    loopUp n f s = loopUp n g s := by
  induction n with
  | zero => rfl
  | succ n ih =>
    rw [loopUp_succ, loopUp_succ, ih fun i hi => h i (Nat.lt_succ_of_lt hi), h n (Nat.lt_succ_self n)]

/-! ## Cells -/

@[simp] theorem length_setCell (b : List (BitVec w)) (i : Nat) (v : BitVec w) :
    (setCell b i v).length = b.length := by simp [setCell]

theorem cell_setCell (b : List (BitVec w)) (i j : Nat) (v : BitVec w) (h : i < b.length) :
    cell (setCell b i v) j = if j = i then v else cell b j := by
  unfold cell setCell
  by_cases hji : j = i
  · subst hji; simp [List.getD_eq_getElem?_getD, List.getElem?_set_self h]
  · simp [List.getD_eq_getElem?_getD, List.getElem?_set_ne (Ne.symm hji), hji]

theorem cell_setCell_self (b : List (BitVec w)) (i : Nat) (v : BitVec w) (h : i < b.length) :
    cell (setCell b i v) i = v := by simp [cell_setCell b i i v h]

theorem cell_setCell_ne (b : List (BitVec w)) (i j : Nat) (v : BitVec w) (h : j ≠ i) :
    cell (setCell b i v) j = cell b j := by
  unfold cell setCell
  simp [List.getD_eq_getElem?_getD, List.getElem?_set_ne (Ne.symm h)]

theorem cell_eq_getElem (b : List (BitVec w)) (i : Nat) (h : i < b.length) : cell b i = b[i] := by
  simp [cell, List.getD_eq_getElem?_getD, List.getElem?_eq_getElem h]

theorem cell_of_length_le (b : List (BitVec w)) (i : Nat) (h : b.length ≤ i) : cell b i = 0 := by
  simp [cell, List.getD_eq_getElem?_getD, List.getElem?_eq_none h]

/-- Two buffers of one length with the same cells are the same buffer. -/
theorem ext_cell {b c : List (BitVec w)} (hl : b.length = c.length)
    (h : ∀ i, i < b.length → cell b i = cell c i) : b = c := by
  apply List.ext_getElem hl
  intro i h1 h2
  rw [← cell_eq_getElem b i h1, ← cell_eq_getElem c i h2]
  exact h i h1

theorem cell_mem_or_zero (b : List (BitVec w)) (i : Nat) : cell b i ∈ b ∨ cell b i = 0 := by
  by_cases h : i < b.length
  · exact .inl (cell_eq_getElem b i h ▸ List.getElem_mem h)
  · exact .inr (cell_of_length_le b i (Nat.le_of_not_lt h))

/-- A property of every member is one of every cell. -/
theorem forall_mem_iff_cell {b : List (BitVec w)} {P : BitVec w → Prop} :
    (∀ x ∈ b, P x) ↔ ∀ i, i < b.length → P (cell b i) := by
  constructor
  · intro h i hi
    exact h _ (cell_eq_getElem b i hi ▸ List.getElem_mem hi)
  · intro h x hx
    obtain ⟨i, hi, rfl⟩ := List.getElem_of_mem hx
    rw [← cell_eq_getElem b i hi]
    exact h i hi

/-! ## Loops that write one cell a turn -/

theorem length_loopUp_setCell (n : Nat) (at' : Nat → Nat) (f : Nat → List (BitVec w) → BitVec w)
    (b : List (BitVec w)) : (loopUp n (fun i b => setCell b (at' i) (f i b)) b).length = b.length :=
  loopUp_induct (fun _ (x : List (BitVec w)) => x.length = b.length) n rfl fun _ _ _ hx => by simpa using hx

/-- The loop `for i in 0..n: BUF[i] <- f i BUF[i]`, other buffers being fixed: every cell below `n` is its own new value,
the rest stay. -/
theorem cell_loopUp_update (n : Nat) (f : Nat → BitVec w → BitVec w) (b : List (BitVec w)) (hn : n ≤ b.length)
    (j : Nat) :
    cell (loopUp n (fun i b => setCell b i (f i (cell b i))) b) j = if j < n then f j (cell b j) else cell b j := by
  induction n generalizing j with
  | zero => simp
  | succ n ih =>
    have hlen := length_loopUp_setCell n (fun i => i) (fun i b => f i (cell b i)) b
    rw [loopUp_succ, cell_setCell _ _ _ _ (by rw [hlen]; omega), ih (by omega), ih (by omega)]
    by_cases hjn : j = n
    · subst hjn; simp
    · by_cases hj : j < n <;> simp [hjn, hj, show (j < n + 1) = (j < n) by simp; omega]

/-- The loop `for i in 0..n: BUF[i] <- f i`. -/
theorem cell_loopUp_fill (n : Nat) (f : Nat → BitVec w) (b : List (BitVec w)) (hn : n ≤ b.length) (j : Nat) :
    cell (loopUp n (fun i b => setCell b i (f i)) b) j = if j < n then f j else cell b j :=
  cell_loopUp_update n (fun i _ => f i) b hn j

end Sys2Proof.Machine
end

