-- ==== Sys2Proof/Laws/Field.lean ====
section
/-! SUPPORT. Field elements: what masks leave, that every field function answers an element, and the bits of
gf_bitrev. -/

namespace Sys2Proof.Machine

variable (p : Params)

theorem toNat_gfmask_lt : p.gfmask.toNat < 2 ^ p.gfbits := by
  have h2 : 0 < 2 ^ p.gfbits := Nat.two_pow_pos _
  have : p.gfmask.toNat ≤ 2 ^ p.gfbits - 1 := by
    rw [Params.gfmask, BitVec.toNat_ofNat]; exact Nat.mod_le _ _
  omega

/-- A masked value is an element (40_field_arithmetic.md R100). -/
theorem elemOk_and_gfmask (x : Elem) : elemOk p (x &&& p.gfmask) := by
  have h : (x &&& p.gfmask).toNat ≤ p.gfmask.toNat := by
    rw [BitVec.toNat_and]; exact Nat.and_le_right
  exact lt_of_le_of_lt h (toNat_gfmask_lt p)

theorem elemOk_zero : elemOk p 0 := by simp [elemOk]

theorem elemOk_one (h : 1 ≤ p.gfbits) : elemOk p 1 := by
  have : 2 ^ 1 ≤ 2 ^ p.gfbits := Nat.pow_le_pow_right (by omega) h
  simp [elemOk]; omega

/-- The mask keeps the low GFBITS bits. -/
theorem toNat_and_gfmask (x : Elem) : (x &&& p.gfmask).toNat = x.toNat % 2 ^ p.gfbits := by
  by_cases h : p.gfbits ≤ 13
  · have hle : 2 ^ p.gfbits ≤ 2 ^ 13 := Nat.pow_le_pow_right (by omega) h
    have hpos := Nat.two_pow_pos p.gfbits
    have : (2 ^ p.gfbits - 1) % 2 ^ 13 = 2 ^ p.gfbits - 1 := Nat.mod_eq_of_lt (by omega)
    rw [BitVec.toNat_and, Params.gfmask, BitVec.toNat_ofNat, this, Nat.and_two_pow_sub_one_eq_mod]
  · have hlt : x.toNat < 2 ^ p.gfbits :=
      lt_of_lt_of_le x.isLt (Nat.pow_le_pow_right (by omega) (by omega))
    have hm : p.gfmask = BitVec.allOnes 13 := by
      apply BitVec.eq_of_toNat_eq
      obtain ⟨k, hk⟩ := Nat.exists_eq_add_of_le (show 13 ≤ p.gfbits by omega)
      have h1 : 2 ^ p.gfbits = 2 ^ 13 * 2 ^ k := by rw [hk, Nat.pow_add]
      have h2 := Nat.two_pow_pos k
      rw [Params.gfmask, BitVec.toNat_ofNat, BitVec.toNat_allOnes, h1]
      omega
    rw [hm, BitVec.and_allOnes, Nat.mod_eq_of_lt hlt]

theorem and_gfmask_of_elemOk {x : Elem} (h : elemOk p x) : x &&& p.gfmask = x := by
  apply BitVec.eq_of_toNat_eq
  rw [toNat_and_gfmask, Nat.mod_eq_of_lt h]

/-- Operand assembly answers an element and leaves an element as it is (30_encoding.md R82). -/
theorem elemOk_operand (x : BitVec 13) : elemOk p (operand p x) := elemOk_and_gfmask p x

theorem operand_of_elemOk {x : Elem} (h : elemOk p x) : operand p x = x := and_gfmask_of_elemOk p h

theorem elemOk_toElem (v : Nat) : elemOk p (toElem p v) := elemOk_and_gfmask p _

theorem toNat_toElem (h : p.gfbits ≤ 13) (v : Nat) : (toElem p v).toNat = v % 2 ^ p.gfbits := by
  rw [toElem, toNat_and_gfmask, BitVec.toNat_ofNat, Nat.mod_mod_of_dvd v (Nat.pow_dvd_pow 2 h)]

theorem elemOk_gfMul (a b : Elem) : elemOk p (gfMul p a b) := by
  unfold elemOk gfMul
  rw [BitVec.toNat_ofNat]
  exact lt_of_le_of_lt (Nat.mod_le _ _) (Nat.mod_lt _ (Nat.two_pow_pos _))

theorem elemOk_gfAdd {a b : Elem} (ha : elemOk p a) (hb : elemOk p b) : elemOk p (gfAdd a b) := by
  unfold elemOk gfAdd at *
  rw [BitVec.toNat_xor]
  exact Nat.xor_lt_two_pow ha hb

theorem elemOk_gfPow (h : 1 ≤ p.gfbits) (a : Elem) (n : Nat) : elemOk p (gfPow p a n) := by
  cases n with
  | zero => exact elemOk_one p h
  | succ n => exact elemOk_gfMul p _ _

theorem elemOk_gfInv (h : 1 ≤ p.gfbits) (a : Elem) : elemOk p (gfInv p a) := by
  unfold gfInv
  split
  · exact elemOk_zero p
  · generalize p.gfbits - 1 = n
    cases n with
    | zero => exact elemOk_one p h
    | succ n => exact elemOk_gfMul p _ _

@[simp] theorem gfInv_zero : gfInv p 0 = 0 := rfl

/-- The bits of gf_bitrev (40_field_arithmetic.md R108). -/
theorem getLsbD_gfBitrev (h : p.gfbits ≤ 13) (a : Elem) (i : Nat) :
    (gfBitrev p a).getLsbD i = (decide (i < p.gfbits) && a.getLsbD (p.gfbits - 1 - i)) := by
  have key : ∀ n, n ≤ p.gfbits →
      (loopUp n (fun i r => r ||| ((BitVec.ofBool (a.getLsbD (p.gfbits - 1 - i))).setWidth 13 <<< i))
        (0 : Elem)).getLsbD i = (decide (i < n) && a.getLsbD (p.gfbits - 1 - i)) := by
    intro n hn
    induction n with
    | zero => simp
    | succ n ih =>
      rw [loopUp_succ, BitVec.getLsbD_or, ih (by omega)]
      by_cases hin : i = n
      · subst hin
        simp [BitVec.getLsbD_shiftLeft]
        omega
      · have hlt : (i < n + 1) = (i < n) := by simp; omega
        simp only [hlt]
        by_cases h1 : i < n
        · simp [BitVec.getLsbD_shiftLeft, h1]
        · have h3 : ¬ i - n < 1 := by omega
          simp [BitVec.getLsbD_shiftLeft, BitVec.getLsbD_setWidth, BitVec.getLsbD_ofBool, h1]
          intros; omega
  exact key p.gfbits (le_refl _)

theorem elemOk_gfBitrev (h : p.gfbits ≤ 13) (a : Elem) : elemOk p (gfBitrev p a) := by
  apply Nat.lt_pow_two_of_testBit
  intro i hi
  have := getLsbD_gfBitrev p h a i
  rw [BitVec.getLsbD] at this
  simp [this]
  omega

end Sys2Proof.Machine
end

