-- ==== Sys2Proof/Laws/Matrix.lean ====
section
/-! SUPPORT. Bytes and bits of MAT: reading after writing, the packed layer, the masked row XOR. `rows` is the number of
rows of the matrix; a matrix of `rows` rows has `rows * ROW_BYTES` bytes. -/

namespace Sys2Proof.Machine

variable (p : Params)

/-! ## Row-major addressing -/

/-- Row and byte column are read off the linear index (20_memory.md R54). -/
theorem rowMajor_inj {stride r c r' c' : Nat} (hc : c < stride) (hc' : c' < stride) :
    r * stride + c = r' * stride + c' ↔ r = r' ∧ c = c' := by
  constructor
  · intro h
    have hs : 0 < stride := by omega
    have h1 : (r * stride + c) / stride = r := by
      rw [Nat.mul_comm, Nat.mul_add_div hs, Nat.div_eq_of_lt hc, Nat.add_zero]
    have h2 : (r' * stride + c') / stride = r' := by
      rw [Nat.mul_comm, Nat.mul_add_div hs, Nat.div_eq_of_lt hc', Nat.add_zero]
    have hr : r = r' := by rw [← h1, ← h2, h]
    subst hr
    exact ⟨rfl, by omega⟩
  · rintro ⟨rfl, rfl⟩; rfl

theorem rowMajor_lt {stride rows r c : Nat} (hr : r < rows) (hc : c < stride) : r * stride + c < rows * stride := by
  have : (r + 1) * stride ≤ rows * stride := Nat.mul_le_mul_right _ hr
  rw [Nat.add_mul] at this
  omega

@[simp] theorem length_matSet (mat : List Byte) (r c : Nat) (v : Byte) :
    (matSet p mat r c v).length = mat.length := length_setCell _ _ _

theorem matGet_matSet {mat : List Byte} {rows : Nat} (hl : mat.length = rows * p.rowBytes) {r c r' c' : Nat} (v : Byte)
    (hr : r < rows) (hc : c < p.rowBytes) (hc' : c' < p.rowBytes) :
    matGet p (matSet p mat r c v) r' c' = if r' = r ∧ c' = c then v else matGet p mat r' c' := by
  unfold matGet matSet
  rw [cell_setCell _ _ _ _ (by rw [hl]; exact rowMajor_lt hr hc)]
  simp only [rowMajor_inj hc' hc]

/-- Two matrices of one length with the same bytes are the same matrix. -/
theorem ext_matGet {a b : List Byte} {rows : Nat} (ha : a.length = rows * p.rowBytes) (hb : b.length = rows * p.rowBytes)
    (h : ∀ r c, r < rows → c < p.rowBytes → matGet p a r c = matGet p b r c) : a = b := by
  apply ext_cell (by rw [ha, hb])
  intro i hi
  rw [ha] at hi
  have hs : 0 < p.rowBytes := by
    rcases Nat.eq_zero_or_pos p.rowBytes with h0 | h0
    · rw [h0] at hi; omega
    · exact h0
  have := h (i / p.rowBytes) (i % p.rowBytes) (Nat.div_lt_of_lt_mul (by rwa [Nat.mul_comm] at hi)) (Nat.mod_lt _ hs)
  simpa [matGet, Nat.div_add_mod'] using this

/-! ## The masked row XOR (44_systematic_reducer.md R182) -/

@[simp] theorem sext8_zero : sext8 0#1 = 0x00#8 := by decide
@[simp] theorem sext8_one : sext8 1#1 = 0xFF#8 := by decide

theorem bit_cases (m : BitVec 1) : m = 0#1 ∨ m = 1#1 := by
  revert m; decide

@[simp] theorem length_xorRow (mat : List Byte) (x y : Nat) (m : BitVec 1) :
    (xorRow p mat x y m).length = mat.length :=
  loopUp_induct (fun _ (b : List Byte) => b.length = mat.length) _ rfl fun _ _ _ hb => by simpa using hb

/-- What XORing row `x` into row `y` under a mask leaves: every byte of row `y` is its old value XOR the masked byte of
row `x`; every other row stays. -/
theorem matGet_xorRow {mat : List Byte} {rows : Nat} (hl : mat.length = rows * p.rowBytes) {x y : Nat} (m : BitVec 1)
    (hy : y < rows) (r : Nat) {c : Nat} (hc : c < p.rowBytes) :
    matGet p (xorRow p mat x y m) r c =
      if r = y then matGet p mat y c ^^^ (matGet p mat x c &&& sext8 m) else matGet p mat r c := by
  have key : ∀ n, n ≤ p.rowBytes → ∀ r c, c < p.rowBytes →
      matGet p (loopUp n (fun c b => matSet p b y c (matGet p b y c ^^^ (matGet p b x c &&& sext8 m))) mat) r c =
        if r = y ∧ c < n then matGet p mat y c ^^^ (matGet p mat x c &&& sext8 m) else matGet p mat r c := by
    intro n hn
    induction n with
    | zero => simp
    | succ n ih =>
      intro r c hc
      have hlen : (loopUp n (fun c b => matSet p b y c (matGet p b y c ^^^ (matGet p b x c &&& sext8 m))) mat).length
          = rows * p.rowBytes := by
        rw [← hl]
        exact loopUp_induct (fun _ (b : List Byte) => b.length = mat.length) _ rfl fun _ _ _ hb => by simpa using hb
      rw [loopUp_succ, matGet_matSet p hlen _ hy (by omega) hc, ih (by omega) _ _ (by omega),
        ih (by omega) _ _ (by omega), ih (by omega) _ _ hc]
      by_cases hr : r = y
      · subst hr
        by_cases hcn : c = n
        · subst hcn; simp
        · have : (c < n + 1) = (c < n) := by simp; omega
          simp [hcn, this]
      · simp [hr]
  have := key p.rowBytes (le_refl _) r c hc
  simpa [xorRow, hc] using this

/-- The same at bit level (44_systematic_reducer.md R198). -/
theorem matBit_xorRow {mat : List Byte} {rows : Nat} (hl : mat.length = rows * p.rowBytes) {x y : Nat} (m : BitVec 1)
    (hy : y < rows) (r : Nat) {n : Nat} (hn : n / 8 < p.rowBytes) :
    matBit p (xorRow p mat x y m) r n =
      if r = y then (matBit p mat y n ^^ (matBit p mat x n && m == 1)) else matBit p mat r n := by
  unfold matBit
  rw [matGet_xorRow p hl m hy r hn]
  split
  · rcases bit_cases m with rfl | rfl
    · simp
    · simp only [sext8_one, BitVec.getLsbD_xor, BitVec.getLsbD_and]
      have : n % 8 < 8 := Nat.mod_lt _ (by omega)
      have h : (0xFF#8).getLsbD (n % 8) = true := by
        generalize n % 8 = k at *
        interval_cases k <;> rfl
      simp [h]
  · rfl

/-- The pivot bit of a row is its bit in the pivot's column (R181). -/
theorem pivotBit_eq_one_iff (mat : List Byte) (row k : Nat) : pivotBit p mat row k = 1 ↔ matBit p mat k row = true := by
  unfold pivotBit matBit
  generalize matGet p mat k (row / 8) = b
  have : row % 8 < 8 := Nat.mod_lt _ (by omega)
  generalize row % 8 = j at *
  rw [← BitVec.toNat_inj]
  rw [show (1 : BitVec 1).toNat = 1 from rfl, BitVec.toNat_setWidth,
    BitVec.toNat_ushiftRight, BitVec.getLsbD, Nat.testBit, Nat.shiftRight_eq_div_pow]
  rw [Nat.and_comm, Nat.and_one_is_mod]
  simp

theorem pivotBit_eq_zero_iff (mat : List Byte) (row k : Nat) : pivotBit p mat row k = 0 ↔ matBit p mat k row = false := by
  rw [← Bool.not_eq_true, ← pivotBit_eq_one_iff]
  rcases bit_cases (pivotBit p mat row k) with h | h <;> simp [h]

/-! ## The packed layer (43_matrix_builder.md R162) -/

/-- Bit `t` of a packed byte is bit `k` of position `j + t` (R162). -/
theorem getLsbD_packByte (inv : List Elem) (j k : Nat) {t : Nat} (ht : t < 8) :
    (packByte inv j k).getLsbD t = (cell inv (j + t)).getLsbD k := by
  have key : ∀ n, n ≤ 8 →
      (loopUp n (fun t b => b ||| ((elemBit (cell inv (j + t)) k).setWidth 8 <<< t)) (0 : Byte)).getLsbD t
        = (decide (t < n) && (cell inv (j + t)).getLsbD k) := by
    intro n hn
    induction n with
    | zero => simp
    | succ n ih =>
      rw [loopUp_succ, BitVec.getLsbD_or, ih (by omega)]
      by_cases htn : t = n
      · subst htn
        simp [elemBit, ht]
      · have hlt : (t < n + 1) = (t < n) := by simp; omega
        simp only [hlt]
        by_cases h1 : t < n
        · simp [BitVec.getLsbD_shiftLeft, h1]
        · have h3 : 1 ≤ t - n := by omega
          simp [elemBit, BitVec.getLsbD_shiftLeft, BitVec.getLsbD_ofBool, h1]
          intros; omega
  simpa [packByte, ht] using key 8 (le_refl _)

theorem length_packLayer (inv : List Elem) (i : Nat) (mat : List Byte) :
    (packLayer p inv i mat).length = mat.length :=
  loopUp_induct (fun _ (b : List Byte) => b.length = mat.length) _ rfl fun _ _ b hb =>
    loopUp_induct (fun _ (b : List Byte) => b.length = mat.length) _ hb fun _ _ _ hb => by simpa using hb

/-- What packing layer `i` leaves: the rows of the layer hold the packed bytes, every other row stays (R162). -/
theorem matGet_packLayer (inv : List Elem) {i : Nat} {mat : List Byte} {rows : Nat}
    (hl : mat.length = rows * p.rowBytes) (hi : (i + 1) * p.gfbits ≤ rows) (r : Nat) {c : Nat} (hc : c < p.rowBytes) :
    matGet p (packLayer p inv i mat) r c =
      if i * p.gfbits ≤ r ∧ r < (i + 1) * p.gfbits then packByte inv (8 * c) (r - i * p.gfbits)
      else matGet p mat r c := by
  have hrow : ∀ k, k < p.gfbits → i * p.gfbits + k < rows := by
    intro k hk; rw [Nat.add_mul, Nat.one_mul] at hi; omega
  -- the inner loop, over the rows of one byte column
  have inner : ∀ (j8 : Nat) (m : List Byte), j8 < p.rowBytes → m.length = rows * p.rowBytes → ∀ n, n ≤ p.gfbits →
      let m' := loopUp n (fun k m => matSet p m (i * p.gfbits + k) j8 (packByte inv (8 * j8) k)) m
      m'.length = rows * p.rowBytes ∧ ∀ r c, c < p.rowBytes → matGet p m' r c =
        if c = j8 ∧ i * p.gfbits ≤ r ∧ r < i * p.gfbits + n then packByte inv (8 * c) (r - i * p.gfbits)
        else matGet p m r c := by
    intro j8 m hj hm n hn
    induction n with
    | zero =>
      refine ⟨hm, ?_⟩
      intro r c _
      have : ¬ (c = j8 ∧ i * p.gfbits ≤ r ∧ r < i * p.gfbits + 0) := by omega
      rw [if_neg this]; rfl
    | succ n ih =>
      obtain ⟨hlen, hget⟩ := ih (by omega)
      refine ⟨by simpa using hlen, ?_⟩
      intro r c hc
      rw [loopUp_succ, matGet_matSet p hlen _ (hrow n (by omega)) hj hc, hget r c hc]
      by_cases h1 : r = i * p.gfbits + n ∧ c = j8
      · obtain ⟨rfl, rfl⟩ := h1
        simp
      · rw [if_neg h1]
        congr 1
        simp only [eq_iff_iff]
        omega
  have outer : ∀ n, n ≤ p.rowBytes →
      let m' := loopUp n (fun j8 m =>
        loopUp p.gfbits (fun k m => matSet p m (i * p.gfbits + k) j8 (packByte inv (8 * j8) k)) m) mat
      m'.length = rows * p.rowBytes ∧ ∀ r c, c < p.rowBytes → matGet p m' r c =
        if c < n ∧ i * p.gfbits ≤ r ∧ r < i * p.gfbits + p.gfbits then packByte inv (8 * c) (r - i * p.gfbits)
        else matGet p mat r c := by
    intro n hn
    induction n with
    | zero => exact ⟨hl, fun r c _ => by simp⟩
    | succ n ih =>
      obtain ⟨hlen, hget⟩ := ih (by omega)
      obtain ⟨hlen', hget'⟩ := inner n _ (by omega) hlen p.gfbits (le_refl _)
      refine ⟨hlen', ?_⟩
      intro r c hc
      rw [loopUp_succ, hget' r c hc, hget r c hc]
      by_cases hcn : c = n
      · subst hcn; simp
      · have : (c < n + 1) = (c < n) := by simp; omega
        simp [hcn, this]
  have := (outer p.rowBytes (le_refl _)).2 r c hc
  rw [show (i + 1) * p.gfbits = i * p.gfbits + p.gfbits by rw [Nat.add_mul, Nat.one_mul]]
  simpa [packLayer, Params.rowBytes, show c < p.sysN / 8 from hc] using this

/-! ## The layer update (43_matrix_builder.md R164) -/

@[simp] theorem length_advance (l inv : List Elem) : (advance p l inv).length = inv.length :=
  loopUp_induct (fun _ (b : List Elem) => b.length = inv.length) _ rfl fun _ _ _ hb => by simpa using hb

/-- Every element is multiplied by its support value (R164). -/
theorem cell_advance (l : List Elem) {inv : List Elem} (h : p.sysN ≤ inv.length) {j : Nat} (hj : j < p.sysN) :
    cell (advance p l inv) j = gfMul p (cell inv j) (cell l j) := by
  have := cell_loopUp_update p.sysN (fun j x => gfMul p x (cell l j)) inv h j
  simpa [advance, hj] using this

end Sys2Proof.Machine
end

