-- ==== Sys2Proof/Laws/Stages.lean ====
section
/-! SUPPORT. What each stage function leaves in the buffer it writes: one lemma per function, for the proofs to cite. -/

namespace Sys2Proof.Machine

variable (p : Params)

/-! ## SK.LOADG -/

/-- A little-endian pair of bytes as a number (20_memory.md R51). -/
theorem memRead_two (sk : List Byte) (i : Nat) :
    memRead sk i 2 = (cell sk i).toNat + 256 * (cell sk (i + 1)).toNat := by
  have h : (cell sk i).toNat < 2 ^ 8 := (cell sk i).isLt
  have := Nat.shiftLeft_add_eq_or_of_lt h (cell sk (i + 1)).toNat
  simp only [memRead, loopUp_succ, loopUp_zero, Nat.zero_or, Nat.mul_zero, Nat.shiftLeft_zero, Nat.add_zero,
    Nat.mul_one]
  rw [Nat.or_comm, ← this, Nat.shiftLeft_eq]
  omega

/-- A coefficient is its little-endian byte pair modulo 2^GFBITS (42_goppa_evaluator.md R141). -/
theorem toNat_coefficient (h : p.gfbits ≤ 13) (sk : List Byte) (i : Nat) :
    (coefficient p sk i).toNat
      = ((cell sk (2 * i)).toNat + 256 * (cell sk (2 * i + 1)).toNat) % 2 ^ p.gfbits := by
  rw [coefficient, toNat_toElem p h, memRead_two]

@[simp] theorem length_loadCoefficients (sk : List Byte) (g : List Elem) :
    (loadCoefficients p sk g).length = g.length := by
  simp [loadCoefficients, length_loopUp_setCell p.sysT (fun i => i) (fun i _ => coefficient p sk i) g]

/-- G after SK.LOADG: the coefficients, then the leading 1 (R142). -/
theorem cell_loadCoefficients (sk : List Byte) {g : List Elem} (hg : g.length = p.sysT + 1) {i : Nat}
    (hi : i < p.sysT + 1) :
    cell (loadCoefficients p sk g) i = if i = p.sysT then 1 else coefficient p sk i := by
  have hl : (loopUp p.sysT (fun i b => setCell b i (coefficient p sk i)) g).length = g.length :=
    length_loopUp_setCell p.sysT (fun i => i) (fun i _ => coefficient p sk i) g
  rw [loadCoefficients, cell_setCell _ _ _ _ (by rw [hl, hg]; omega), cell_loopUp_fill _ _ _ (by omega)]
  by_cases h : i = p.sysT
  · simp [h]
  · simp [h, show i < p.sysT by omega]

/-! ## SUP.GEN -/

/-- A composite key as a number: seed word above, index below (41_support_generator.md R122). -/
theorem toNat_compositeKey (perm : List Word) {i : Nat} (hi : i < 2 ^ 31) :
    (compositeKey perm i).toNat = (cell perm i).toNat * 2 ^ 31 + i := by
  have hc : (cell perm i).toNat < 2 ^ 32 := (cell perm i).isLt
  have hz : ((cell perm i).setWidth 64 <<< 31).toNat = (cell perm i).toNat <<< 31 := by
    rw [BitVec.toNat_shiftLeft, BitVec.toNat_setWidth, Nat.shiftLeft_eq, Nat.shiftLeft_eq,
      Nat.mod_eq_of_lt (a := (cell perm i).toNat) (by omega)]
    exact Nat.mod_eq_of_lt (by omega)
  rw [compositeKey, BitVec.toNat_or, hz, BitVec.toNat_ofNat, Nat.mod_eq_of_lt (a := i) (by omega),
    ← Nat.shiftLeft_add_eq_or_of_lt hi, Nat.shiftLeft_eq]

@[simp] theorem length_compositeKeys (perm : List Word) : (compositeKeys p perm).length = p.permLen := by
  simp [compositeKeys]

/-- Sorting rearranges the keys (R123). -/
theorem sortedKeys_perm (perm : List Word) : (sortedKeys p perm).Perm (compositeKeys p perm) :=
  List.perm_insertionSort _ _

@[simp] theorem length_sortedKeys (perm : List Word) : (sortedKeys p perm).length = p.permLen := by
  rw [(sortedKeys_perm p perm).length_eq, length_compositeKeys]

/-- The sorted keys ascend (R123). -/
theorem sortedKeys_pairwise (perm : List Word) :
    (sortedKeys p perm).Pairwise (fun x y => x.toNat ≤ y.toNat) := by
  have : Std.Total (fun x y : Key => x.toNat ≤ y.toNat) := ⟨fun x y => Nat.le_total _ _⟩
  have : IsTrans Key (fun x y : Key => x.toNat ≤ y.toNat) := ⟨fun _ _ _ h1 h2 => Nat.le_trans h1 h2⟩
  exact List.pairwise_insertionSort _ _

@[simp] theorem length_permOverwrite (skey : List Key) (perm : List Word) :
    (permOverwrite p skey perm).length = perm.length :=
  length_loopUp_setCell p.permLen (fun r => r) (fun r _ => ((cell skey r).setWidth 13 &&& p.gfmask).setWidth 32) perm

/-- PERM after the overwrite: the low GFBITS bits of the sorted keys (R124). -/
theorem toNat_cell_permOverwrite (h : p.gfbits ≤ 13) (skey : List Key) {perm : List Word}
    (hp : perm.length = p.permLen) {r : Nat} (hr : r < p.permLen) :
    (cell (permOverwrite p skey perm) r).toNat = (cell skey r).toNat % 2 ^ p.gfbits := by
  rw [permOverwrite, cell_loopUp_fill _ _ _ (by omega), if_pos hr, BitVec.toNat_setWidth, toNat_and_gfmask, BitVec.toNat_setWidth,
    Nat.mod_mod_of_dvd _ (Nat.pow_dvd_pow 2 h)]
  apply Nat.mod_eq_of_lt
  exact lt_of_lt_of_le (Nat.mod_lt _ (Nat.two_pow_pos _)) (Nat.pow_le_pow_right (by omega) (by omega))

@[simp] theorem length_supportFill (perm : List Word) (l : List Elem) : (supportFill p perm l).length = l.length :=
  length_loopUp_setCell p.sysN (fun i => i) (fun i _ => gfBitrev p ((cell perm i).setWidth 13)) l

/-- L after SUP.GEN: the bit-reversed entries of PERM (R125). -/
theorem cell_supportFill (perm : List Word) {l : List Elem} (hl : l.length = p.sysN) {i : Nat} (hi : i < p.sysN) :
    cell (supportFill p perm l) i = gfBitrev p ((cell perm i).setWidth 13) := by
  rw [supportFill, cell_loopUp_fill _ _ _ (by omega), if_pos hi]

/-! ## ROOT.EVAL -/

@[simp] theorem length_reciprocals (g l inv : List Elem) : (reciprocals p g l inv).length = inv.length :=
  length_loopUp_setCell p.sysN (fun i => i) (fun i _ => gfInv p (gfEval p g (cell l i))) inv

/-- INV after ROOT.EVAL (42_goppa_evaluator.md R145). -/
theorem cell_reciprocals (g l : List Elem) {inv : List Elem} (hv : inv.length = p.sysN) {i : Nat} (hi : i < p.sysN) :
    cell (reciprocals p g l inv) i = gfInv p (gfEval p g (cell l i)) := by
  rw [reciprocals, cell_loopUp_fill _ _ _ (by omega), if_pos hi]

/-! ## MAT.BUILD -/

@[simp] theorem buildLayers_zero (l : List Elem) (mi : List Byte × List Elem) : buildLayers p l 0 mi = mi := rfl

@[simp] theorem buildLayers_succ (l : List Elem) (n : Nat) (mi : List Byte × List Elem) :
    buildLayers p l (n + 1) mi =
      (packLayer p (buildLayers p l n mi).2 n (buildLayers p l n mi).1, advance p l (buildLayers p l n mi).2) := rfl

@[simp] theorem length_buildLayers_mat (l : List Elem) (n : Nat) (mi : List Byte × List Elem) :
    (buildLayers p l n mi).1.length = mi.1.length := by
  induction n with
  | zero => rfl
  | succ n ih => simp [length_packLayer, ih]

@[simp] theorem length_buildLayers_inv (l : List Elem) (n : Nat) (mi : List Byte × List Elem) :
    (buildLayers p l n mi).2.length = mi.2.length := by
  induction n with
  | zero => rfl
  | succ n ih => simp [ih]

/-! ## RED.RUN -/

@[simp] theorem length_pass1 (row : Nat) (mat : List Byte) : (pass1 p row mat).length = mat.length :=
  loopUp_induct (fun _ (b : List Byte) => b.length = mat.length) _ rfl fun _ _ _ hb => by simpa [pass1Step] using hb

@[simp] theorem length_pass3 (row : Nat) (mat : List Byte) : (pass3 p row mat).length = mat.length :=
  loopUp_induct (fun _ (b : List Byte) => b.length = mat.length) _ rfl fun i _ b hb => by
    by_cases h : i = row
    · simpa [h] using hb
    · simpa [h, pass3Step] using hb

/-- Everything a pivot step can do (44_systematic_reducer.md R188). -/
theorem pivotStep_cases (row : Nat) (mat : List Byte) :
    (pivotBit p (pass1 p row mat) row row = 0 ∧ pivotStep p row mat = .nonSystematic (pass1 p row mat)) ∨
      (pivotBit p (pass1 p row mat) row row = 1 ∧ pivotStep p row mat = .done (pass3 p row (pass1 p row mat))) := by
  rcases bit_cases (pivotBit p (pass1 p row mat) row row) with h | h
  · exact .inl ⟨h, by simp [pivotStep, h]⟩
  · exact .inr ⟨h, by simp [pivotStep, h]⟩

@[simp] theorem length_pivotStep (row : Nat) (mat : List Byte) : (pivotStep p row mat).mat.length = mat.length := by
  rcases pivotStep_cases p row mat with ⟨_, h⟩ | ⟨_, h⟩ <;> simp [h, PivotResult.mat]

@[simp] theorem length_reduceFrom (n row : Nat) (mat : List Byte) :
    (reduceFrom p n row mat).mat.length = mat.length := by
  induction n generalizing row mat with
  | zero => rfl
  | succ n ih =>
    have hl := length_pivotStep p row mat
    unfold reduceFrom
    split
    · next m h => rw [h] at hl; rw [ih]; exact hl
    · next m h => rw [h] at hl; exact hl

/-- Everything RED.RUN can do to the state (44_systematic_reducer.md R190): a matrix and STATUS, nothing else. -/
theorem redRun_cases (s : State) :
    (∃ m, reduce s.params s.mem.mat = .done m ∧ redRun s = (s.setMat m).setFail false) ∨
      (∃ m, reduce s.params s.mem.mat = .nonSystematic m ∧ redRun s = raiseNonSystematic (s.setMat m)) := by
  unfold redRun
  split
  · next m h => exact .inl ⟨m, h, rfl⟩
  · next m h => exact .inr ⟨m, h, rfl⟩

/-! ## PK.SER and PK.GEN -/

@[simp] theorem length_serialize (mat pk : List Byte) : (serialize p mat pk).length = pk.length :=
  loopUp_induct (fun _ (b : List Byte) => b.length = pk.length) _ rfl fun _ _ _ hb =>
    loopUp_induct (fun _ (b : List Byte) => b.length = pk.length) _ hb fun _ _ _ hb => by simpa using hb

/-- PK after PK.SER: the byte columns of MAT from PK_NROWS / 8 on (45_serializer_and_keygen.md R211). -/
theorem cell_serialize (mat : List Byte) {pk : List Byte} (hp : pk.length = p.pkNrows * p.pkRowBytes) {row c : Nat}
    (hr : row < p.pkNrows) (hc : c < p.pkRowBytes) :
    cell (serialize p mat pk) (row * p.pkRowBytes + c) = matGet p mat row (p.pkNrows / 8 + c) := by
  -- the inner loop, over the bytes of one row
  have inner : ∀ (r0 : Nat) (b : List Byte), r0 < p.pkNrows → b.length = p.pkNrows * p.pkRowBytes → ∀ n, n ≤ p.pkRowBytes →
      let b' := loopUp n (fun c b => setCell b (r0 * p.pkRowBytes + c) (matGet p mat r0 (p.pkNrows / 8 + c))) b
      b'.length = p.pkNrows * p.pkRowBytes ∧ ∀ r c, c < p.pkRowBytes → cell b' (r * p.pkRowBytes + c) =
        if r = r0 ∧ c < n then matGet p mat r (p.pkNrows / 8 + c) else cell b (r * p.pkRowBytes + c) := by
    intro r0 b hr0 hb n hn
    induction n with
    | zero => exact ⟨hb, fun r c _ => by simp⟩
    | succ n ih =>
      obtain ⟨hlen, hget⟩ := ih (by omega)
      refine ⟨by simpa using hlen, ?_⟩
      intro r c hc
      have hlt := rowMajor_lt hr0 (show n < p.pkRowBytes by omega)
      rw [loopUp_succ, cell_setCell _ _ _ _ (by rw [hlen]; exact hlt), hget r c hc]
      simp only [rowMajor_inj hc (show n < p.pkRowBytes by omega)]
      by_cases hr : r = r0
      · subst hr
        by_cases hcn : c = n
        · subst hcn; simp
        · have : (c < n + 1) = (c < n) := by simp; omega
          simp [hcn, this]
      · simp [hr]
  have outer : ∀ n, n ≤ p.pkNrows →
      let b' := loopUp n (fun row b => loopUp p.pkRowBytes
        (fun c b => setCell b (row * p.pkRowBytes + c) (matGet p mat row (p.pkNrows / 8 + c))) b) pk
      b'.length = p.pkNrows * p.pkRowBytes ∧ ∀ r c, c < p.pkRowBytes → cell b' (r * p.pkRowBytes + c) =
        if r < n then matGet p mat r (p.pkNrows / 8 + c) else cell pk (r * p.pkRowBytes + c) := by
    intro n hn
    induction n with
    | zero => exact ⟨hp, fun r c _ => by simp⟩
    | succ n ih =>
      obtain ⟨hlen, hget⟩ := ih (by omega)
      obtain ⟨hlen', hget'⟩ := inner n _ (by omega) hlen p.pkRowBytes (le_refl _)
      refine ⟨hlen', ?_⟩
      intro r c hc
      rw [loopUp_succ, hget' r c hc, hget r c hc]
      by_cases hrn : r = n
      · subst hrn; simp [hc]
      · have : (r < n + 1) = (r < n) := by simp; omega
        simp [hrn, this]
  have := (outer p.pkNrows (le_refl _)).2 row c hc
  simpa [serialize, hr] using this

/-- Everything PK.GEN can do (45_serializer_and_keygen.md R215): the reduced state, serialized exactly when FAIL = 0. -/
theorem pkGen_cases (s : State) :
    ((pkGenReduced s).fail = false ∧ pkGen s = pkSer (pkGenReduced s)) ∨
      ((pkGenReduced s).fail = true ∧ pkGen s = pkGenReduced s) := by
  unfold pkGen
  cases h : (pkGenReduced s).fail
  · exact .inl ⟨rfl, by simp [h]⟩
  · exact .inr ⟨rfl, by simp [h]⟩

end Sys2Proof.Machine
end

