-- ==== Sys2Proof/Laws/State.lean ====
section
/-! SUPPORT. One lemma per field of State per update: what each update writes and what it leaves. -/

namespace Sys2Proof.Machine

section setFr
variable (s : State) (v : Elem)
@[simp] theorem setFr_params : (s.setFr v).params = s.params := rfl
@[simp] theorem setFr_fr : (s.setFr v).fr = v := rfl
@[simp] theorem setFr_status : (s.setFr v).status = s.status := rfl
@[simp] theorem setFr_mem : (s.setFr v).mem = s.mem := rfl
@[simp] theorem setFr_pending : (s.setFr v).pending = s.pending := rfl
@[simp] theorem setFr_index : (s.setFr v).index = s.index := rfl
@[simp] theorem setFr_replies : (s.setFr v).replies = s.replies := rfl
@[simp] theorem setFr_draws : (s.setFr v).draws = s.draws := rfl
end setFr

section setFail
variable (s : State) (f : Bool)
@[simp] theorem setFail_params : (s.setFail f).params = s.params := rfl
@[simp] theorem setFail_fr : (s.setFail f).fr = s.fr := rfl
@[simp] theorem setFail_status : (s.setFail f).status = sext32 f := rfl
@[simp] theorem setFail_mem : (s.setFail f).mem = s.mem := rfl
@[simp] theorem setFail_pending : (s.setFail f).pending = s.pending := rfl
@[simp] theorem setFail_index : (s.setFail f).index = s.index := rfl
@[simp] theorem setFail_replies : (s.setFail f).replies = s.replies := rfl
@[simp] theorem setFail_draws : (s.setFail f).draws = s.draws := rfl
end setFail

section setG
variable (s : State) (b : List Elem)
@[simp] theorem setG_params : (s.setG b).params = s.params := rfl
@[simp] theorem setG_fr : (s.setG b).fr = s.fr := rfl
@[simp] theorem setG_status : (s.setG b).status = s.status := rfl
@[simp] theorem setG_mem : (s.setG b).mem = { s.mem with g := b } := rfl
@[simp] theorem setG_pending : (s.setG b).pending = s.pending := rfl
@[simp] theorem setG_index : (s.setG b).index = s.index := rfl
@[simp] theorem setG_replies : (s.setG b).replies = s.replies := rfl
@[simp] theorem setG_draws : (s.setG b).draws = s.draws := rfl
end setG

section setPerm
variable (s : State) (b : List Word)
@[simp] theorem setPerm_params : (s.setPerm b).params = s.params := rfl
@[simp] theorem setPerm_fr : (s.setPerm b).fr = s.fr := rfl
@[simp] theorem setPerm_status : (s.setPerm b).status = s.status := rfl
@[simp] theorem setPerm_mem : (s.setPerm b).mem = { s.mem with perm := b } := rfl
@[simp] theorem setPerm_pending : (s.setPerm b).pending = s.pending := rfl
@[simp] theorem setPerm_index : (s.setPerm b).index = s.index := rfl
@[simp] theorem setPerm_replies : (s.setPerm b).replies = s.replies := rfl
@[simp] theorem setPerm_draws : (s.setPerm b).draws = s.draws := rfl
end setPerm

section setL
variable (s : State) (b : List Elem)
@[simp] theorem setL_params : (s.setL b).params = s.params := rfl
@[simp] theorem setL_fr : (s.setL b).fr = s.fr := rfl
@[simp] theorem setL_status : (s.setL b).status = s.status := rfl
@[simp] theorem setL_mem : (s.setL b).mem = { s.mem with l := b } := rfl
@[simp] theorem setL_pending : (s.setL b).pending = s.pending := rfl
@[simp] theorem setL_index : (s.setL b).index = s.index := rfl
@[simp] theorem setL_replies : (s.setL b).replies = s.replies := rfl
@[simp] theorem setL_draws : (s.setL b).draws = s.draws := rfl
end setL

section setInv
variable (s : State) (b : List Elem)
@[simp] theorem setInv_params : (s.setInv b).params = s.params := rfl
@[simp] theorem setInv_fr : (s.setInv b).fr = s.fr := rfl
@[simp] theorem setInv_status : (s.setInv b).status = s.status := rfl
@[simp] theorem setInv_mem : (s.setInv b).mem = { s.mem with inv := b } := rfl
@[simp] theorem setInv_pending : (s.setInv b).pending = s.pending := rfl
@[simp] theorem setInv_index : (s.setInv b).index = s.index := rfl
@[simp] theorem setInv_replies : (s.setInv b).replies = s.replies := rfl
@[simp] theorem setInv_draws : (s.setInv b).draws = s.draws := rfl
end setInv

section setMat
variable (s : State) (b : List Byte)
@[simp] theorem setMat_params : (s.setMat b).params = s.params := rfl
@[simp] theorem setMat_fr : (s.setMat b).fr = s.fr := rfl
@[simp] theorem setMat_status : (s.setMat b).status = s.status := rfl
@[simp] theorem setMat_mem : (s.setMat b).mem = { s.mem with mat := b } := rfl
@[simp] theorem setMat_pending : (s.setMat b).pending = s.pending := rfl
@[simp] theorem setMat_index : (s.setMat b).index = s.index := rfl
@[simp] theorem setMat_replies : (s.setMat b).replies = s.replies := rfl
@[simp] theorem setMat_draws : (s.setMat b).draws = s.draws := rfl
end setMat

section setPk
variable (s : State) (b : List Byte)
@[simp] theorem setPk_params : (s.setPk b).params = s.params := rfl
@[simp] theorem setPk_fr : (s.setPk b).fr = s.fr := rfl
@[simp] theorem setPk_status : (s.setPk b).status = s.status := rfl
@[simp] theorem setPk_mem : (s.setPk b).mem = { s.mem with pk := b } := rfl
@[simp] theorem setPk_pending : (s.setPk b).pending = s.pending := rfl
@[simp] theorem setPk_index : (s.setPk b).index = s.index := rfl
@[simp] theorem setPk_replies : (s.setPk b).replies = s.replies := rfl
@[simp] theorem setPk_draws : (s.setPk b).draws = s.draws := rfl
end setPk

section raiseNonSystematic
variable (s : State)
@[simp] theorem raiseNonSystematic_params : (raiseNonSystematic s).params = s.params := rfl
@[simp] theorem raiseNonSystematic_fr : (raiseNonSystematic s).fr = s.fr := rfl
@[simp] theorem raiseNonSystematic_status : (raiseNonSystematic s).status = 0xFFFFFFFF#32 := by simp only [raiseNonSystematic, setFail_status]; decide
@[simp] theorem raiseNonSystematic_mem : (raiseNonSystematic s).mem = s.mem := rfl
@[simp] theorem raiseNonSystematic_pending : (raiseNonSystematic s).pending = s.pending := rfl
@[simp] theorem raiseNonSystematic_index : (raiseNonSystematic s).index = s.index := rfl
@[simp] theorem raiseNonSystematic_replies : (raiseNonSystematic s).replies = s.replies := rfl
@[simp] theorem raiseNonSystematic_draws : (raiseNonSystematic s).draws = s.draws := rfl
end raiseNonSystematic

/-- The two values of STATUS (10_state.md R31). -/
theorem sext32_false : sext32 false = 0x00000000#32 := by decide
theorem sext32_true : sext32 true = 0xFFFFFFFF#32 := by decide

@[simp] theorem setFail_fail (s : State) (f : Bool) : (s.setFail f).fail = f := by
  cases f <;> simp [State.fail, sext32_false, sext32_true]

@[simp] theorem raiseNonSystematic_fail (s : State) : (raiseNonSystematic s).fail = true := by
  simp [raiseNonSystematic]

section resetUnit
variable (s : State)
@[simp] theorem resetUnit_params : (resetUnit s).params = s.params := rfl
@[simp] theorem resetUnit_fr : (resetUnit s).fr = Config.resetFr s.draws &&& s.params.gfmask := rfl
@[simp] theorem resetUnit_status : (resetUnit s).status = 0 := rfl
@[simp] theorem resetUnit_mem : (resetUnit s).mem = resetMemory s.params s.draws := rfl
@[simp] theorem resetUnit_pending : (resetUnit s).pending = s.pending := rfl
@[simp] theorem resetUnit_index : (resetUnit s).index = s.index := rfl
@[simp] theorem resetUnit_replies : (resetUnit s).replies = s.replies := rfl
@[simp] theorem resetUnit_draws : (resetUnit s).draws = s.draws + 1 := rfl
end resetUnit

end Sys2Proof.Machine
end

