-- ==== Sys2Proof/Laws/Memory.lean ====
section
/-! SUPPORT. Every memory operation keeps the memory's form (`Memory.wf`), and a reset memory has it. -/

namespace Sys2Proof.Machine

variable (p : Params)

/-- Writing an element keeps a buffer of elements one. -/
theorem forall_elemOk_setCell {b : List Elem} (h : ∀ x ∈ b, elemOk p x) (i : Nat) {v : Elem} (hv : elemOk p v) :
    ∀ x ∈ setCell b i v, elemOk p x := by
  intro x hx
  rcases List.mem_or_eq_of_mem_set hx with h' | rfl
  · exact h x h'
  · exact hv

theorem forall_elemOk_loopUp {b : List Elem} (h : ∀ x ∈ b, elemOk p x) (n : Nat) (f : Nat → List Elem → Elem)
    (hf : ∀ i b, elemOk p (f i b)) : ∀ x ∈ loopUp n (fun i b => setCell b i (f i b)) b, elemOk p x :=
  loopUp_induct (fun _ (c : List Elem) => ∀ x ∈ c, elemOk p x) n h fun i _ _ hc =>
    forall_elemOk_setCell p hc i (hf i _)

/-! ## Reset and host writes -/

/-- A reset memory has the form, whatever the free values are. -/
theorem resetMemory_wf (draw : Nat) : Memory.wf p (resetMemory p draw) := by
  refine ⟨by simp [resetMemory], by simp [resetMemory], by simp [resetMemory], by simp [resetMemory],
    by simp [resetMemory], by simp [resetMemory], by simp [resetMemory], ?_, ?_, ?_⟩ <;>
  · intro x hx
    obtain ⟨i, _, rfl⟩ := List.mem_map.mp hx
    exact elemOk_and_gfmask p _

/-- A host write keeps the form (20_memory.md R58). -/
theorem store_wf {m : Memory} (h : Memory.wf p m) (sp : Space) (i v : Nat) : Memory.wf p (m.store p sp i v) := by
  obtain ⟨h1, h2, h3, h4, h5, h6, h7, h8, h9, h10⟩ := h
  have he := elemOk_toElem p v
  cases sp <;>
  simp only [Memory.wf, Memory.store, length_setCell] <;>
  refine ⟨h1, h2, h3, h4, h5, h6, h7, ?_, ?_, ?_⟩ <;>
  first
    | assumption
    | exact forall_elemOk_setCell p (by assumption) i he

/-! ## The commands -/

variable {p} {m : Memory}

theorem loadCoefficients_wf (h1 : 1 ≤ p.gfbits) (h : Memory.wf p m) :
    Memory.wf p { m with g := loadCoefficients p m.sk m.g } := by
  obtain ⟨a1, a2, a3, a4, a5, a6, a7, a8, a9, a10⟩ := h
  exact ⟨a1, by simpa using a2, a3, a4, a5, a6, a7,
    forall_elemOk_setCell p (forall_elemOk_loopUp p a8 _ (fun i _ => coefficient p m.sk i) fun i _ => elemOk_toElem p _)
      _ (elemOk_one p h1), a9, a10⟩

theorem supportFill_wf (h13 : p.gfbits ≤ 13) (h : Memory.wf p m) (skey : List Key) (perm : List Word) :
    Memory.wf p { m with perm := permOverwrite p skey m.perm, l := supportFill p perm m.l } := by
  obtain ⟨a1, a2, a3, a4, a5, a6, a7, a8, a9, a10⟩ := h
  exact ⟨a1, a2, by simpa using a3, by simpa using a4, a5, a6, a7, a8,
    forall_elemOk_loopUp p a9 _ (fun i _ => gfBitrev p ((cell perm i).setWidth 13)) fun i _ => elemOk_gfBitrev p h13 _,
    a10⟩

theorem reciprocals_wf (h1 : 1 ≤ p.gfbits) (h : Memory.wf p m) (g l : List Elem) :
    Memory.wf p { m with inv := reciprocals p g l m.inv } := by
  obtain ⟨a1, a2, a3, a4, a5, a6, a7, a8, a9, a10⟩ := h
  exact ⟨a1, a2, a3, a4, by simpa using a5, a6, a7, a8, a9,
    forall_elemOk_loopUp p a10 _ (fun i _ => gfInv p (gfEval p g (cell l i))) fun i _ => elemOk_gfInv p h1 _⟩

theorem buildLayers_wf (h : Memory.wf p m) (l : List Elem) (n : Nat) :
    Memory.wf p { m with mat := (buildLayers p l n (m.mat, m.inv)).1, inv := (buildLayers p l n (m.mat, m.inv)).2 } := by
  obtain ⟨a1, a2, a3, a4, a5, a6, a7, a8, a9, a10⟩ := h
  refine ⟨a1, a2, a3, a4, by simpa using a5, by simpa using a6, a7, a8, a9, ?_⟩
  induction n with
  | zero => exact a10
  | succ n ih =>
    exact forall_elemOk_loopUp p ih _ (fun j b => gfMul p (cell b j) (cell l j)) fun j b => elemOk_gfMul p _ _

theorem reduce_wf (h : Memory.wf p m) : Memory.wf p { m with mat := (reduce p m.mat).mat } := by
  obtain ⟨a1, a2, a3, a4, a5, a6, a7, a8, a9, a10⟩ := h
  exact ⟨a1, a2, a3, a4, a5, by simpa [reduce] using a6, a7, a8, a9, a10⟩

theorem serialize_wf (h : Memory.wf p m) (mat : List Byte) : Memory.wf p { m with pk := serialize p mat m.pk } := by
  obtain ⟨a1, a2, a3, a4, a5, a6, a7, a8, a9, a10⟩ := h
  exact ⟨a1, a2, a3, a4, a5, a6, by simpa using a7, a8, a9, a10⟩

/-! ## Checking a concrete state -/

/-- `s.Inv` as one check that the kernel evaluates fast: `List.all` over the elements. -/
def invCheck (s : State) : Bool :=
  s.params.wellFormed && (s.mem.sk.length == s.params.cells .sk && s.mem.g.length == s.params.cells .g
    && s.mem.perm.length == s.params.cells .perm && s.mem.l.length == s.params.cells .l
    && s.mem.inv.length == s.params.cells .inv && s.mem.mat.length == s.params.cells .mat
    && s.mem.pk.length == s.params.cells .pk)
    && (s.fr :: s.mem.g ++ s.mem.l ++ s.mem.inv).all (fun x => x.toNat < 2 ^ s.params.gfbits)
    && (s.status == 0x00000000#32 || s.status == 0xFFFFFFFF#32)

theorem inv_of_check {s : State} (h : invCheck s = true) : s.Inv := by
  simp only [invCheck, Bool.and_eq_true, beq_iff_eq, Bool.or_eq_true, List.all_eq_true, decide_eq_true_eq, List.mem_append,
    List.mem_cons] at h
  obtain ⟨⟨⟨hp, ⟨⟨⟨⟨⟨h1, h2⟩, h3⟩, h4⟩, h5⟩, h6⟩, h7⟩, he⟩, hs⟩ := h
  exact ⟨hp, ⟨h1, h2, h3, h4, h5, h6, h7, fun x hx => he x (.inl (.inl (.inr hx))), fun x hx => he x (.inl (.inr hx)),
    fun x hx => he x (.inr hx)⟩, he _ (.inl (.inl (.inl rfl))), hs⟩

end Sys2Proof.Machine
end

