-- ==== Sys2Proof/Laws/PerInstr.lean ====
section
/-! SUPPORT. Facts about every command as syntax, one lemma per constructor. -/

/-! ## OpcodeRow: a command's word satisfies the match and mask of its row, and its OP field is its row's code
(30_encoding.md R81, R83) -/

namespace Sys2Proof.Laws.OpcodeRow

/-- The word of a command lies in its own row of the opcode map. -/
def Statement (i : Instr) : Prop :=
  encode i &&& i.opcode.maskBits = i.opcode.matchBits ∧ fieldOp (encode i) = i.opcode.code

/-- A 32-bit word of format F2 keeps OP and the zero bits above B. -/
theorem formatF2_row (op : BitVec 4) (b a : BitVec 13) :
    formatF2 op b a &&& 0xFC000000#32 = op ++ 0#28 ∧ fieldOp (formatF2 op b a) = op := by
  constructor
  · apply BitVec.eq_of_getLsbD_eq
    intro i hi
    simp only [formatF2, BitVec.getLsbD_and, BitVec.getLsbD_append, BitVec.getLsbD_zero]
    interval_cases i <;> simp
  · apply BitVec.eq_of_getLsbD_eq
    intro i hi
    simp only [fieldOp, formatF2, BitVec.getLsbD_extractLsb', BitVec.getLsbD_append]
    interval_cases i <;> simp

theorem formatF1_eq (op : BitVec 4) (a : BitVec 13) : formatF1 op a = formatF2 op 0#13 a := rfl

/-- A 32-bit word of format F1 keeps OP and the zero bits above A. -/
theorem formatF1_row (op : BitVec 4) (a : BitVec 13) :
    formatF1 op a &&& 0xFFFFE000#32 = op ++ 0#28 ∧ fieldOp (formatF1 op a) = op := by
  refine ⟨?_, formatF1_eq op a ▸ (formatF2_row op 0#13 a).2⟩
  apply BitVec.eq_of_getLsbD_eq
  intro i hi
  simp only [formatF1, BitVec.getLsbD_and, BitVec.getLsbD_append, BitVec.getLsbD_zero]
  interval_cases i <;> simp

theorem gfMul (a b : BitVec 13) : Statement (.gfMul a b) := formatF2_row 0x1 b a
theorem gfInv (a : BitVec 13) : Statement (.gfInv a) := formatF1_row 0x2 a
theorem gfBitrev (a : BitVec 13) : Statement (.gfBitrev a) := formatF1_row 0x3 a
theorem skLoadg : Statement .skLoadg := by unfold Statement; decide
theorem supGen : Statement .supGen := by unfold Statement; decide
theorem rootEval : Statement .rootEval := by unfold Statement; decide
theorem matBuild : Statement .matBuild := by unfold Statement; decide
theorem redRun : Statement .redRun := by unfold Statement; decide
theorem pkSer : Statement .pkSer := by unfold Statement; decide
theorem pkGen : Statement .pkGen := by unfold Statement; decide

end Sys2Proof.Laws.OpcodeRow
end

