-- ==== Sys2Proof/Laws/Polynomial.lean ====
section
/-! SUPPORT. Numbers as polynomials over GF(2), bit `i` the coefficient of `x^i` (40_field_arithmetic.md R101): what the
field unit's bit operations are there, that the irreducibility check of a parameter set means irreducibility, and the
field itself as a quotient. -/

open Polynomial

namespace Sys2Proof.Machine

/-- The polynomial of a number: bit `i` is the coefficient of `x^i` (R101). -/
noncomputable def toPoly (n : Nat) : (ZMod 2)[X] := ∑ i ∈ Finset.range (n + 1), if n.testBit i then X ^ i else 0

theorem coeff_toPoly (n i : Nat) : (toPoly n).coeff i = if n.testBit i then 1 else 0 := by
  rw [toPoly, finsetSum_coeff]
  rw [Finset.sum_eq_single i]
  · by_cases h : n.testBit i <;> simp [h]
  · intro j _ hji
    by_cases h : n.testBit j <;> simp [h, coeff_X_pow, Ne.symm hji]
  · intro hi
    have : n < 2 ^ i := lt_of_lt_of_le (by simpa using hi) (Nat.lt_two_pow_self (n := i)).le
    simp [Nat.testBit_lt_two_pow this]

@[simp] theorem toPoly_zero : toPoly 0 = 0 := by ext i; simp [coeff_toPoly]
@[simp] theorem toPoly_one : toPoly 1 = 1 := by
  ext i
  rw [coeff_toPoly, coeff_one, ← Nat.pow_zero 2, Nat.testBit_two_pow]
  simp [eq_comm]

theorem toPoly_inj {a b : Nat} : toPoly a = toPoly b ↔ a = b := by
  constructor
  · intro h
    apply Nat.eq_of_testBit_eq
    intro i
    have := congrArg (fun q => q.coeff i) h
    simp only [coeff_toPoly] at this
    cases ha : a.testBit i <;> cases hb : b.testBit i <;> simp_all
  · rintro rfl; rfl

/-- Exclusive or is addition (R103). -/
theorem toPoly_xor (a b : Nat) : toPoly (a ^^^ b) = toPoly a + toPoly b := by
  ext i
  rw [coeff_add, coeff_toPoly, coeff_toPoly, coeff_toPoly, Nat.testBit_xor]
  cases a.testBit i <;> cases b.testBit i <;> simp
  decide

/-- A shift left is multiplication by a power of `x`. -/
theorem toPoly_shiftLeft (a k : Nat) : toPoly (a <<< k) = toPoly a * X ^ k := by
  ext i
  rw [coeff_toPoly, coeff_mul_X_pow', Nat.testBit_shiftLeft]
  by_cases h : k ≤ i <;> simp [h, coeff_toPoly]

/-- The carry-less product of `a` and the low `n` bits of `b` is the product of polynomials (R104). -/
theorem toPoly_clmul (n a b : Nat) : toPoly (clmul n a b) = toPoly a * toPoly (b % 2 ^ n) := by
  unfold clmul
  induction n with
  | zero => simp [Nat.mod_one]
  | succ n ih =>
    rw [loopUp_succ]
    have hsplit : b % 2 ^ (n + 1) = (b % 2 ^ n) ^^^ (if b.testBit n then 1 <<< n else 0) := by
      apply Nat.eq_of_testBit_eq
      intro i
      rw [Nat.testBit_mod_two_pow, Nat.testBit_xor, Nat.testBit_mod_two_pow]
      by_cases hin : i = n
      · subst hin
        cases h : b.testBit i <;> simp [Nat.testBit_shiftLeft]
      · have h1 : (decide (i < n + 1)) = decide (i < n) := by simp; omega
        rw [h1]
        cases h : b.testBit n <;> simp [Nat.one_shiftLeft, Ne.symm hin]
    rw [hsplit, toPoly_xor, mul_add, ← ih]
    cases h : b.testBit n
    · simp
    · simp only [if_true, toPoly_xor, toPoly_shiftLeft, toPoly_one, one_mul]

theorem toPoly_clmul_of_lt {n b : Nat} (a : Nat) (hb : b < 2 ^ n) : toPoly (clmul n a b) = toPoly a * toPoly b := by
  rw [toPoly_clmul, Nat.mod_eq_of_lt hb]

/-- Bits stay below a bound under the carry-less product. -/
theorem clmul_lt {m n a : Nat} (b : Nat) (ha : a < 2 ^ m) (hn : 1 ≤ n) : clmul n a b < 2 ^ (m + n - 1) := by
  refine loopUp_induct (fun i (x : Nat) => x < 2 ^ (m + n - 1)) n (Nat.two_pow_pos _) fun i hi x hx => ?_
  split
  · refine Nat.xor_lt_two_pow hx ?_
    rw [Nat.shiftLeft_eq]
    calc a * 2 ^ i < 2 ^ m * 2 ^ i := Nat.mul_lt_mul_of_pos_right ha (Nat.two_pow_pos _)
      _ = 2 ^ (m + i) := (Nat.pow_add ..).symm
      _ ≤ 2 ^ (m + n - 1) := Nat.pow_le_pow_right (by omega) (by omega)
  · exact hx

/-! ## Degrees -/

theorem natDegree_toPoly_lt {n m : Nat} (h : n < 2 ^ m) : (toPoly n).degree < m := by
  rw [degree_lt_iff_coeff_zero]
  intro i hi
  rw [coeff_toPoly, Nat.testBit_lt_two_pow (lt_of_lt_of_le h (Nat.pow_le_pow_right (by omega) hi))]
  rfl

/-- Every polynomial over GF(2) is that of a number. -/
theorem exists_toPoly (N : Nat) (f : (ZMod 2)[X]) (h : f.degree < N) : ∃ n < 2 ^ N, toPoly n = f := by
  induction N generalizing f with
  | zero =>
    refine ⟨0, by simp, ?_⟩
    rw [toPoly_zero]
    exact (degree_eq_bot.mp (by simpa [Nat.WithBot.lt_zero_iff] using h)).symm
  | succ N ih =>
    have hdeg : (f - C (f.coeff N) * X ^ N).degree < (N : WithBot ℕ) := by
      rw [degree_lt_iff_coeff_zero] at h ⊢
      intro i hi
      rcases Nat.eq_or_lt_of_le hi with rfl | hlt
      · simp
      · simp [h i hlt, show i ≠ N by omega]
    obtain ⟨n, hn, hf⟩ := ih _ hdeg
    rcases (show f.coeff N = 0 ∨ f.coeff N = 1 by generalize f.coeff N = c; revert c; decide) with hc | hc
    · refine ⟨n, lt_trans hn (Nat.pow_lt_pow_right (by omega) (by omega)), ?_⟩
      simpa [hc] using hf
    · refine ⟨n ^^^ (1 <<< N), Nat.xor_lt_two_pow ?_ ?_, ?_⟩
      · exact lt_trans hn (Nat.pow_lt_pow_right (by omega) (by omega))
      · rw [Nat.shiftLeft_eq, Nat.one_mul]; exact Nat.pow_lt_pow_right (by omega) (by omega)
      · rw [toPoly_xor, toPoly_shiftLeft, hf, hc]; simp

/-- A number with bit `m` its highest has a monic polynomial of degree `m`. -/
theorem degree_toPoly {m n : Nat} (h1 : 2 ^ m ≤ n) (h2 : n < 2 ^ (m + 1)) :
    (toPoly n).natDegree = m ∧ (toPoly n).Monic := by
  have hbit : n.testBit m = true := Nat.testBit_of_two_pow_le_and_two_pow_add_one_gt h1 h2
  have hc : (toPoly n).coeff m = 1 := by rw [coeff_toPoly, hbit]; rfl
  have hd : (toPoly n).natDegree = m := by
    apply natDegree_eq_of_le_of_coeff_ne_zero
    · rw [natDegree_le_iff_coeff_eq_zero]
      intro i hi
      rw [coeff_toPoly, Nat.testBit_lt_two_pow (lt_of_lt_of_le h2 (Nat.pow_le_pow_right (by omega) hi))]
      rfl
    · rw [hc]; exact one_ne_zero
  exact ⟨hd, by rw [Monic, leadingCoeff, hd, hc]⟩

/-! ## Long division and irreducibility (00_scope.md R9) -/

/-- The remainder differs from the dividend by a multiple of the divisor. -/
theorem polyRem_dvd_sub (d k a : Nat) : toPoly d ∣ toPoly a - toPoly (polyRem d k a) := by
  induction k generalizing a with
  | zero => simp [polyRem]
  | succ k ih =>
    unfold polyRem
    split
    · have h1 := ih (a ^^^ (d <<< k))
      rw [toPoly_xor, toPoly_shiftLeft] at h1
      have h2 : toPoly d ∣ toPoly d * X ^ k := dvd_mul_right _ _
      have := dvd_sub h1 h2
      simpa [add_sub_assoc, sub_eq_add_neg, add_assoc, add_comm, add_left_comm] using this
    · exact ih a

/-- The remainder is below the divisor's leading bit. -/
theorem polyRem_lt {d : Nat} (hd : d ≠ 0) (k : Nat) {a : Nat} (ha : a < 2 ^ (k + d.log2)) :
    polyRem d k a < 2 ^ d.log2 := by
  induction k generalizing a with
  | zero => simpa [polyRem] using ha
  | succ k ih =>
    unfold polyRem
    have h1 : 2 ^ d.log2 ≤ d := Nat.log2_self_le hd
    have h2 : d < 2 ^ (d.log2 + 1) := Nat.lt_log2_self
    split
    · next hbit =>
      apply ih
      apply Nat.lt_pow_two_of_testBit
      intro i hi
      rw [Nat.testBit_xor, Nat.testBit_shiftLeft]
      rcases Nat.eq_or_lt_of_le hi with rfl | hlt
      · have : d.testBit d.log2 = true := Nat.testBit_of_two_pow_le_and_two_pow_add_one_gt h1 h2
        simp [hbit, this]
      · have e1 : a.testBit i = false := Nat.testBit_lt_two_pow
          (lt_of_lt_of_le ha (Nat.pow_le_pow_right (by omega) (by omega)))
        have e2 : d.testBit (i - k) = false := Nat.testBit_lt_two_pow
          (lt_of_lt_of_le h2 (Nat.pow_le_pow_right (by omega) (by omega)))
        simp [e1, e2]
    · next hbit =>
      apply ih
      apply Nat.lt_pow_two_of_testBit
      intro i hi
      rcases Nat.eq_or_lt_of_le hi with rfl | hlt
      · simpa using hbit
      · exact Nat.testBit_lt_two_pow (lt_of_lt_of_le ha (Nat.pow_le_pow_right (by omega) (by omega)))

/-- A divisor leaves remainder 0. -/
theorem polyRem_eq_zero_of_dvd {d a k : Nat} (hd : d ≠ 0) (ha : a < 2 ^ (k + d.log2)) (h : toPoly d ∣ toPoly a) :
    polyRem d k a = 0 := by
  by_contra hne
  have hdvd : toPoly d ∣ toPoly (polyRem d k a) := by
    have := dvd_sub h (polyRem_dvd_sub d k a)
    simpa using this
  have hlt := natDegree_toPoly_lt (polyRem_lt hd k ha)
  have hne0 : toPoly (polyRem d k a) ≠ 0 := by rw [← toPoly_zero, Ne, toPoly_inj]; exact hne
  have hdeg := degree_le_of_dvd hdvd hne0
  obtain ⟨hnat, hmon⟩ := degree_toPoly (Nat.log2_self_le hd) (Nat.lt_log2_self (n := d))
  rw [degree_eq_natDegree hmon.ne_zero, hnat] at hdeg
  exact absurd (lt_of_le_of_lt hdeg hlt) (lt_irrefl _)

/-- The check of a parameter set's FIELD_POLY means irreducibility over GF(2) (R9). -/
theorem irreducible_toPoly {m poly : Nat} (hm : 1 ≤ m) (hdeg : polyDegreeIs m poly = true)
    (hirr : polyIrreducible m poly = true) : Irreducible (toPoly poly) := by
  simp only [polyDegreeIs, Bool.and_eq_true, decide_eq_true_eq] at hdeg
  obtain ⟨hnat, hmon⟩ := degree_toPoly hdeg.1 hdeg.2
  -- a factor of degree 1 to m / 2 would leave remainder 0
  have small : ∀ f : (ZMod 2)[X], f ∣ toPoly poly → 0 < f.natDegree → f.natDegree ≤ m / 2 → False := by
    intro f hf h0 hle
    have hf0 : f ≠ 0 := by rintro rfl; simp at h0
    obtain ⟨d, hd, rfl⟩ := exists_toPoly (m / 2 + 1) f (by
      rw [degree_eq_natDegree hf0]; exact_mod_cast Nat.lt_succ_of_le hle)
    have hd2 : 2 ≤ d := by
      by_contra hlt
      have : d = 0 ∨ d = 1 := by omega
      rcases this with rfl | rfl <;> simp at h0
    have hlog : d.log2 ≤ m / 2 := by
      have := (degree_toPoly (Nat.log2_self_le (by omega : d ≠ 0)) Nat.lt_log2_self).1
      omega
    have hmem := List.all_eq_true.mp hirr d (List.mem_range.mpr hd)
    have hrem := polyRem_eq_zero_of_dvd (k := m + 1 - d.log2) (by omega : d ≠ 0)
      (by rw [Nat.sub_add_cancel (by omega)]; exact hdeg.2) hf
    simp only [hrem, Bool.or_eq_true, decide_eq_true_eq, bne_self_eq_false, Bool.false_eq_true, or_false] at hmem
    omega
  rw [hmon.irreducible_iff_natDegree']
  refine ⟨by rintro h; rw [h] at hnat; simp at hnat; omega, ?_⟩
  intro f g hf hg hfg hmem
  rw [Finset.mem_Ioc, hnat] at hmem
  exact small g ⟨f, by rw [← hfg, mul_comm]⟩ hmem.1 hmem.2

/-- What a valid parameter set says of the field polynomial (R9, R10). -/
theorem Params.wellFormed_field {p : Params} (h : p.wellFormed = true) :
    1 ≤ p.gfbits ∧ p.gfbits ≤ 13 ∧ 2 ^ p.gfbits ≤ p.fieldPoly ∧ p.fieldPoly < 2 ^ (p.gfbits + 1)
      ∧ Irreducible (toPoly p.fieldPoly) := by
  simp only [Params.wellFormed, Bool.and_eq_true, decide_eq_true_eq] at h
  obtain ⟨⟨⟨⟨⟨⟨⟨⟨h1, h2⟩, _⟩, _⟩, _⟩, _⟩, hd⟩, _⟩, hi⟩ := h
  have hd' := hd
  simp only [polyDegreeIs, Bool.and_eq_true, decide_eq_true_eq] at hd'
  exact ⟨h1, h2, hd'.1, hd'.2, irreducible_toPoly h1 hd hi⟩

/-- What a valid parameter set says of the sizes (R10). -/
theorem Params.wellFormed_sizes {p : Params} (h : p.wellFormed = true) :
    p.sysN ≤ 2 ^ p.gfbits ∧ p.sysN % 8 = 0 ∧ p.pkNrows % 8 = 0 ∧ p.pkNrows ≤ p.sysN := by
  simp only [Params.wellFormed, Bool.and_eq_true, decide_eq_true_eq, beq_iff_eq] at h
  obtain ⟨⟨⟨⟨⟨⟨⟨⟨_, _⟩, h3⟩, h4⟩, h5⟩, h6⟩, _⟩, _⟩, _⟩ := h
  exact ⟨h3, h4, h5, h6⟩

/-! ## Reduction and the product of elements (40_field_arithmetic.md R104) -/

/-- Reduction changes a product by a multiple of the field polynomial. -/
theorem polyReduce_dvd_sub (m poly x : Nat) : toPoly poly ∣ toPoly x - toPoly (polyReduce m poly x) := by
  refine loopDown_induct (fun _ (y : Nat) => toPoly poly ∣ toPoly x - toPoly y) (m - 1) (by simp) fun e _ y hy => ?_
  split
  · rw [toPoly_xor, toPoly_shiftLeft, sub_add_eq_sub_sub]
    exact dvd_sub hy (dvd_mul_right _ _)
  · exact hy

/-- "After the second loop `p` has no bit at or above `GFBITS`" (R104). -/
theorem polyReduce_lt {m poly : Nat} (hm : 1 ≤ m) (h1 : 2 ^ m ≤ poly) (h2 : poly < 2 ^ (m + 1)) {x : Nat}
    (hx : x < 2 ^ (2 * m - 1)) : polyReduce m poly x < 2 ^ m := by
  have hbit : poly.testBit m = true := Nat.testBit_of_two_pow_le_and_two_pow_add_one_gt h1 h2
  have := loopDown_induct (f := fun e p => if p.testBit (m + e) then p ^^^ (poly <<< e) else p) (s := x)
    (fun e (y : Nat) => y < 2 ^ (m + e)) (m - 1) (by rwa [show m + (m - 1) = 2 * m - 1 by omega]) fun e _ y hy => by
      apply Nat.lt_pow_two_of_testBit
      intro i hi
      have hy' : m + e < i → y.testBit i = false := fun hlt =>
        Nat.testBit_lt_two_pow (lt_of_lt_of_le hy (Nat.pow_le_pow_right (by omega) (by omega)))
      split
      · next hb =>
        rw [Nat.testBit_xor, Nat.testBit_shiftLeft]
        rcases Nat.eq_or_lt_of_le hi with rfl | hlt
        · simp [hb, hbit]
        · have : poly.testBit (i - e) = false :=
            Nat.testBit_lt_two_pow (lt_of_lt_of_le h2 (Nat.pow_le_pow_right (by omega) (by omega)))
          simp [hy' hlt, this]
      · next hb =>
        rcases Nat.eq_or_lt_of_le hi with rfl | hlt
        · simpa using hb
        · exact hy' hlt
  simpa [polyReduce] using this

/-- gf_mul as a number: nothing is lost by keeping bits GFBITS-1 .. 0 (R104). -/
theorem toNat_gfMul {p : Params} (h : p.wellFormed = true) {a b : Elem} (ha : elemOk p a) :
    (gfMul p a b).toNat = polyReduce p.gfbits p.fieldPoly (clmul p.gfbits a.toNat b.toNat) := by
  obtain ⟨hm, h13, h1, h2, _⟩ := Params.wellFormed_field h
  have hlt := polyReduce_lt hm h1 h2 (x := clmul p.gfbits a.toNat b.toNat)
    (by have := clmul_lt b.toNat ha hm; rwa [show p.gfbits + p.gfbits - 1 = 2 * p.gfbits - 1 by omega] at this)
  rw [gfMul, BitVec.toNat_ofNat, Nat.mod_eq_of_lt hlt, Nat.mod_eq_of_lt]
  exact lt_of_lt_of_le hlt (Nat.pow_le_pow_right (by omega) h13)

/-! ## The field -/

/-- An element as a member of GF(2)[x] modulo FIELD_POLY (R101). -/
noncomputable def toField (p : Params) (a : Elem) : AdjoinRoot (toPoly p.fieldPoly) :=
  AdjoinRoot.mk (toPoly p.fieldPoly) (toPoly a.toNat)

theorem toField_gfMul {p : Params} (h : p.wellFormed = true) {a b : Elem} (ha : elemOk p a) (hb : elemOk p b) :
    toField p (gfMul p a b) = toField p a * toField p b := by
  rw [toField, toNat_gfMul h ha, toField, toField, ← map_mul, ← toPoly_clmul_of_lt a.toNat hb, eq_comm,
    AdjoinRoot.mk_eq_mk]
  exact polyReduce_dvd_sub _ _ _

theorem toField_gfAdd (p : Params) (a b : Elem) : toField p (gfAdd a b) = toField p a + toField p b := by
  rw [toField, gfAdd, BitVec.toNat_xor, toPoly_xor, map_add]; rfl

@[simp] theorem toField_zero (p : Params) : toField p 0 = 0 := by simp [toField]
@[simp] theorem toField_one (p : Params) : toField p 1 = 1 := by simp [toField]

/-- Different elements are different members of the field (R101). -/
theorem toField_inj {p : Params} (h : p.wellFormed = true) {a b : Elem} (ha : elemOk p a) (hb : elemOk p b) :
    toField p a = toField p b ↔ a = b := by
  obtain ⟨_, _, h1, h2, _⟩ := Params.wellFormed_field h
  obtain ⟨hnat, hmon⟩ := degree_toPoly h1 h2
  constructor
  · intro heq
    rw [toField, toField, AdjoinRoot.mk_eq_mk] at heq
    have hdeg : (toPoly a.toNat - toPoly b.toNat).degree < (toPoly p.fieldPoly).degree := by
      rw [degree_eq_natDegree hmon.ne_zero, hnat]
      exact lt_of_le_of_lt (degree_sub_le _ _) (max_lt (natDegree_toPoly_lt ha) (natDegree_toPoly_lt hb))
    have hzero := eq_zero_of_dvd_of_degree_lt heq hdeg
    exact BitVec.eq_of_toNat_eq (toPoly_inj.mp (sub_eq_zero.mp hzero))
  · rintro rfl; rfl

/-- Every member of the field is an element (R101). -/
theorem exists_toField {p : Params} (h : p.wellFormed = true) (x : AdjoinRoot (toPoly p.fieldPoly)) :
    ∃ a, elemOk p a ∧ toField p a = x := by
  obtain ⟨_, h13, h1, h2, _⟩ := Params.wellFormed_field h
  obtain ⟨hnat, hmon⟩ := degree_toPoly h1 h2
  obtain ⟨f, rfl⟩ := AdjoinRoot.mk_surjective x
  obtain ⟨n, hn, hf⟩ := exists_toPoly p.gfbits (f %ₘ toPoly p.fieldPoly) (by
    rw [← hnat, ← degree_eq_natDegree hmon.ne_zero]; exact degree_modByMonic_lt f hmon)
  have hn13 : n < 2 ^ 13 := lt_of_lt_of_le hn (Nat.pow_le_pow_right (by omega) h13)
  refine ⟨BitVec.ofNat 13 n, ?_, ?_⟩
  · rw [elemOk, BitVec.toNat_ofNat, Nat.mod_eq_of_lt hn13]; exact hn
  · rw [toField, BitVec.toNat_ofNat, Nat.mod_eq_of_lt hn13, hf, AdjoinRoot.mk_eq_mk]
    have := modByMonic_add_div f (toPoly p.fieldPoly)
    exact ⟨-(f /ₘ toPoly p.fieldPoly), by linear_combination this⟩

end Sys2Proof.Machine
end

