-- ==== Sys2Proof/Tests/Slice0.lean ====
section
/-! SUPPORT. The model's own tests, and one witness for the hypotheses of every statement. Expected values are the words of
30_encoding.md and the vectors V<n> of 95_test_vectors.md, which the spec states; none was taken from the model. -/

/- The theorems are checked one after another: each waiting check would hold a thread of its own. -/
set_option Elab.async false

namespace Sys2Proof.Tests

open Sys2Proof.Machine

/-! ## Words (V1 to V9) -/

theorem test_decode_gfMul : decode 0b00010001010101111001001000110100#32 = .ok (.gfMul 0x1234 0x0ABC)
    ∧ decode 0x13FFFFFF#32 = .ok (.gfMul 0x1FFF 0x1FFF) := by decide
theorem test_decode_gfInv : decode 0b00100000000000000001111111111111#32 = .ok (.gfInv 0x1FFF) := by decide
theorem test_decode_gfBitrev : decode 0b00110000000000000001001000110100#32 = .ok (.gfBitrev 0x1234) := by decide
theorem test_decode_skLoadg : decode 0b01000000000000000000000000000000#32 = .ok .skLoadg := by decide
theorem test_decode_supGen : decode 0b01010000000000000000000000000000#32 = .ok .supGen := by decide
theorem test_decode_rootEval : decode 0b01100000000000000000000000000000#32 = .ok .rootEval := by decide
theorem test_decode_matBuild : decode 0b01110000000000000000000000000000#32 = .ok .matBuild := by decide
theorem test_decode_redRun : decode 0b10000000000000000000000000000000#32 = .ok .redRun := by decide
theorem test_decode_pkSer : decode 0b10010000000000000000000000000000#32 = .ok .pkSer := by decide
theorem test_decode_pkGen : decode 0b10100000000000000000000000000000#32 = .ok .pkGen := by decide

/-- V7: reserved OP. -/
theorem test_decode_reserved : decode 0x00000000#32 = .error (.reservedOp 0x0) ∧ decode 0xFFFFFFFF#32 = .error (.reservedOp 0xF)
    ∧ decode 0xB0000000#32 = .error (.reservedOp 0xB) ∧ decode 0xF0000001#32 = .error (.reservedOp 0xF) := by decide
/-- V8: a 1 in cmd[27:26] of F2, in cmd[27:13] of F1. -/
theorem test_decode_mustBeZero : decode 0x14000000#32 = .error (.mustBeZero .gfMul)
    ∧ decode 0x18000001#32 = .error (.mustBeZero .gfMul) ∧ decode 0x20002000#32 = .error (.mustBeZero .gfInv)
    ∧ decode 0x30002000#32 = .error (.mustBeZero .gfBitrev) ∧ decode 0x24000001#32 = .error (.mustBeZero .gfInv) := by decide
/-- V9: a 1 below OP in format N. -/
theorem test_decode_formatN : decode 0xA0000001#32 = .error (.mustBeZero .pkGen)
    ∧ decode 0x80001000#32 = .error (.mustBeZero .redRun) ∧ decode 0x50000002#32 = .error (.mustBeZero .supGen)
    ∧ decode 0x98000000#32 = .error (.mustBeZero .pkSer) := by decide
/-- R87's examples, assembled. -/
theorem test_encode : encode (.gfMul 0x1234 0x0ABC) = 0x11579234#32 ∧ encode (.gfMul 0x0002 0x1000) = 0x12000002#32
    ∧ encode (.gfInv 0x0002) = 0x20000002#32 ∧ encode (.gfBitrev 0x1234) = 0x30001234#32 ∧ encode .pkGen = 0xA0000000#32 := by
  decide
theorem test_decodeTableWord : decodeTableWord 32 0x11579234 = some (.gfMul 0x1234 0x0ABC)
    ∧ decodeTableWord 32 0xB0000000 = none ∧ decodeTableWord 32 0x1A0000000 = none := by decide

/-! ## WellFormed: what each check refuses -/

theorem test_asm_accepts : ({ mnemonic := "GF.MUL", operands := [0x1234, 0x0ABC] } : AsmLine).assemble
    = some (.gfMul 0x1234 0x0ABC) := by decide
theorem test_asm_unknown_mnemonic : ({ mnemonic := "GF.ADD", operands := [1, 2] } : AsmLine).wellFormed = false := by decide
theorem test_asm_lower_case : ({ mnemonic := "gf.mul", operands := [1, 2] } : AsmLine).wellFormed = false := by decide
theorem test_asm_operand_count : ({ mnemonic := "GF.MUL", operands := [1] } : AsmLine).wellFormed = false
    ∧ ({ mnemonic := "PK.GEN", operands := [0] } : AsmLine).wellFormed = false := by decide
/-- R87: "a larger number is an assembly error, not a masked value". -/
theorem test_asm_operand_too_large : ({ mnemonic := "GF.INV", operands := [0x2000] } : AsmLine).wellFormed = false
    ∧ ({ mnemonic := "GF.INV", operands := [0x1FFF] } : AsmLine).wellFormed = true := by decide

/-- R8, R10: the hardware instance and the test instance are valid. -/
theorem test_params_hw : Params.hw.wellFormed = true := by decide +kernel
theorem test_params_t16 : Params.t16.wellFormed = true := by decide +kernel
theorem test_params_gfbits_zero : ({ gfbits := 0, sysT := 0, sysN := 0, fieldPoly := 1 } : Params).wellFormed = false := by
  decide +kernel
/-- GFBITS = 14 with an irreducible polynomial of degree 14 (x^14 + x^5 + 1). -/
theorem test_params_gfbits_too_large :
    ({ gfbits := 14, sysT := 4, sysN := 64, fieldPoly := 0x4021 } : Params).wellFormed = false := by decide +kernel
theorem test_params_sysN_too_large : ({ Params.t16 with sysN := 24 } : Params).wellFormed = false := by decide +kernel
theorem test_params_sysN_multiple : ({ Params.t16 with sysN := 12 } : Params).wellFormed = false := by decide +kernel
/-- R10: QG's toy set is not valid, its PK_NROWS being 6. -/
theorem test_params_toy_set : ({ gfbits := 3, sysT := 2, sysN := 8, fieldPoly := 0xB } : Params).wellFormed = false := by
  decide +kernel
theorem test_params_rows_too_many : ({ Params.t16 with sysT := 4, sysN := 8 } : Params).wellFormed = false := by decide +kernel
theorem test_params_degree : ({ Params.t16 with fieldPoly := 0xB } : Params).wellFormed = false
    ∧ ({ Params.t16 with fieldPoly := 0x25 } : Params).wellFormed = false := by decide +kernel
theorem test_params_bit_zero : ({ Params.t16 with fieldPoly := 0x12 } : Params).wellFormed = false := by decide +kernel
/-- x^4 + x^2 + 1 is the square of x^2 + x + 1, and has no root. -/
theorem test_params_reducible : ({ Params.t16 with fieldPoly := 0x15 } : Params).wellFormed = false := by decide +kernel

/-! ## The test instance T16 and its states -/

/-- The toy seed of 95_test_vectors.md section 3. -/
def toySeed : List Word :=
  [0x9E3779B9, 0x00000007, 0xFFFFFFFF, 0x00000007, 0x80000000, 0x12345678, 0x00000000, 0x7FFFFFFF]
    ++ [0xDEADBEEF, 0x00000001, 0xCAFEBABE, 0x0BADF00D, 0x31415926, 0x27182818, 0x00000007, 0xA5A5A5A5]

/-- L of V21. -/
def toySupport : List Elem := [0x6, 0x9, 0x8, 0xC, 0x7, 0xD, 0xA, 0xB, 0x3, 0xE, 0x2, 0x0, 0xF, 0x5, 0x1, 0x4]
/-- PERM of V21. -/
def toyPerm : List Word := [0x6, 0x9, 0x1, 0x3, 0xE, 0xB, 0x5, 0xD, 0xC, 0x7, 0x4, 0x0, 0xF, 0xA, 0x8, 0x2]
/-- INV of V25. -/
def toyInv : List Elem := [0xA, 0xD, 0x7, 0x2, 0x3, 0x5, 0xD, 0x7, 0x1, 0x5, 0xE, 0x1, 0x2, 0xA, 0xE, 0x3]
/-- MAT of V26. -/
def toyMat : List Byte := [0xF6, 0x8B, 0x9D, 0xF4, 0xE6, 0x46, 0x43, 0x64, 0x5F, 0x17, 0x4A, 0x47, 0xA6, 0xF4, 0x7F, 0xD4]
/-- The reduced MAT of V30 and V31, already systematic (V36). -/
def toyReduced : List Byte := [0x01, 0xFB, 0x02, 0x2D, 0x04, 0x66, 0x08, 0xD8, 0x10, 0xCD, 0x20, 0xC3, 0x40, 0xB2, 0x80, 0x7C]
/-- The singular MAT of V39 (b). -/
def singularMat : List Byte := [0x00, 0x01, 0x02, 0, 0x04, 0, 0x08, 0, 0x10, 0, 0x20, 0, 0x40, 0, 0x80, 0]
/-- The MAT V32 ends with, after a failure at row 6. -/
def failedMat : List Byte := [0x41, 0x55, 0x82, 0xEB, 0x44, 0x68, 0x48, 0x96, 0x90, 0x57, 0x60, 0xA1, 0x80, 0xB5, 0x00, 0x8F]

/-- A T16 state at which each stage has its vector's input: SK of V30, the toy seed, G and L of V25, INV of V26, MAT of V31,
PK filled with EE (V32). -/
def toy : State where
  params := Params.t16
  fr := 0x5
  status := 0xFFFFFFFF
  mem :=
    { sk := [0x01, 0x00, 0x03, 0x00], g := [0x1, 0x3, 0x1], perm := toySeed, l := toySupport, inv := toyInv, mat := toyMat,
      pk := List.replicate 8 0xEE }
  pending := []
  index := 3
  replies := []
  draws := 1

def withSk (b : List Byte) : State := { toy with mem := { toy.mem with sk := b } }
def withG (b : List Elem) : State := { toy with mem := { toy.mem with g := b } }
def withPerm (b : List Word) : State := { toy with mem := { toy.mem with perm := b } }
/-- `toy` with one item left to run. -/
def pend (m : HostMove) : State := { toy with pending := [m] }
def withMat (b : List Byte) : State := { toy with mem := { toy.mem with mat := b } }

/-- The state after a step, where there is one. -/
def after (o : Host.Outcome State Fault Refusal) : State :=
  match o with
  | .next t => t
  | .fault _ => toy
  | .refused _ => toy

/-- A state of T16 with SYS_T = 4, so that PK_NROWS = SYS_N and PK is empty. -/
def square : State where
  params := { Params.t16 with sysT := 4 }
  fr := 0x0
  status := 0
  mem :=
    { sk := List.replicate 8 0x00, g := [0, 0, 0, 0, 1], perm := toySeed, l := toySupport, inv := toyInv,
      mat := List.replicate 32 0x00, pk := [] }
  pending := []
  index := 0
  replies := []
  draws := 1

theorem toy_inv : toy.Inv := inv_of_check (by decide +kernel)
theorem singular_inv : (withMat singularMat).Inv := inv_of_check (by decide +kernel)
/-- V34's polynomial, with roots at positions 0 and 11. -/
theorem rooted_inv : (withG [0x0, 0x6, 0x1]).Inv := inv_of_check (by decide +kernel)
theorem pend_inv (m : HostMove) : (pend m).Inv := ⟨toy_inv.params, toy_inv.memory, toy_inv.fr, toy_inv.status⟩
theorem square_inv : square.Inv := inv_of_check (by decide +kernel)

/-! ## The field commands -/

/-- V10 at the hardware parameters: deepest reduction, and two general operands. -/
theorem test_gfMul_hw : gfMul Params.hw 0x1000 0x1000 = 0x185A ∧ gfMul Params.hw 0x1234 0x0ABC = 0x10F8 := by decide +kernel
/-- V13: operands are masked at T16, `GF.MUL 0x1237, 0x0AB3` is 7 times 3. -/
theorem test_gfMul_masks : (after (exec (.gfMul 0x1237 0x0AB3) toy)).fr = 0x9 := by decide +kernel
/-- V11. -/
theorem test_gfInv_hw : gfInv Params.hw 0x0002 = 0x100D ∧ gfInv Params.hw 0x1555 = 0x1CD7 ∧ gfInv Params.hw 0x0000 = 0x0000 := by
  decide +kernel
/-- V13: the inverses of the whole field. -/
theorem test_gfInv_t16 : (List.range 16).map (fun a => (after (exec (.gfInv (BitVec.ofNat 13 a)) toy)).fr)
    = [0x0, 0x1, 0x9, 0xE, 0xD, 0xB, 0x7, 0x6, 0xF, 0x2, 0xC, 0x5, 0xA, 0x4, 0x3, 0x8] := by decide +kernel
/-- V12. -/
theorem test_gfBitrev_hw : gfBitrev Params.hw 0x1234 = 0x0589 ∧ gfBitrev Params.hw 0x0001 = 0x1000
    ∧ gfBitrev Params.hw 0x0ABC = 0x07AA := by decide +kernel
/-- PR4 step 2: `GF.BITREV 0x0001` gives 8 at T16 and leaves STATUS. -/
theorem test_gfBitrev_t16 : (after (exec (.gfBitrev 0x0001) toy)).fr = 0x8
    ∧ (after (exec (.gfBitrev 0x0001) toy)).status = 0xFFFFFFFF := by decide +kernel

/-! ## The stages -/

/-- V20: bits above GFBITS are masked. -/
theorem test_skLoadg_masks : (after (exec .skLoadg (withSk [0xF1, 0xFF, 0x23, 0xA0]))).mem.g = [0x1, 0x3, 0x1] := by
  decide +kernel
/-- V20: the low byte comes first. -/
theorem test_skLoadg_order : (after (exec .skLoadg (withSk [0x0F, 0x00, 0x00, 0x0F]))).mem.g = [0xF, 0x0, 0x1] := by
  decide +kernel
/-- V21. -/
theorem test_supGen : (after (exec .supGen toy)).mem.perm = toyPerm ∧ (after (exec .supGen toy)).mem.l = toySupport := by
  decide +kernel
/-- V24. -/
theorem test_supGen_twice : (after (exec .supGen (withPerm toyPerm))).mem.perm
    = [0xB, 0x2, 0xF, 0x3, 0xA, 0x6, 0x0, 0x9, 0xE, 0x1, 0xD, 0x5, 0x8, 0x7, 0x4, 0xC] := by decide +kernel
/-- V25. -/
theorem test_rootEval : (after (exec .rootEval toy)).mem.inv = toyInv := by decide +kernel
/-- V34: a root at position 0, where L[0] = 6. -/
theorem test_rootEval_root : (after (exec .rootEval (withG [0x0, 0x6, 0x1]))).mem.inv
    = [0x0, 0x3, 0x2, 0x1, 0x6, 0x7, 0x1, 0x7, 0x8, 0x2, 0xF, 0x0, 0x3, 0x8, 0x6, 0xF] := by decide +kernel
/-- V26. -/
theorem test_matBuild : (after (exec .matBuild toy)).mem.mat = toyMat ∧ (after (exec .matBuild toy)).mem.inv
    = [0x3, 0xE, 0x2, 0xD, 0xA, 0x3, 0x2, 0xA, 0x5, 0x1, 0xD, 0x0, 0x7, 0x7, 0xE, 0x5] := by decide +kernel
/-- V31. -/
theorem test_redRun : (after (exec .redRun toy)).mem.mat = toyReduced ∧ (after (exec .redRun toy)).status = 0x00000000 := by
  decide +kernel
/-- V39 (b): column 0 is zero, so the check of row 0 fails and nothing was added. -/
theorem test_redRun_fails : (after (exec .redRun (withMat singularMat))).mem.mat = singularMat
    ∧ (after (exec .redRun (withMat singularMat))).status = 0xFFFFFFFF := by decide +kernel
/-- V38: the pivot is found only in the last row. -/
theorem test_reduce_antidiagonal :
    reduce Params.t16 [0x80, 0x00, 0x40, 0x01, 0x20, 0x02, 0x10, 0x03, 0x08, 0x04, 0x04, 0x05, 0x02, 0x06, 0x01, 0x07]
    = .done [0x01, 0x07, 0x02, 0x06, 0x04, 0x05, 0x08, 0x04, 0x10, 0x03, 0x20, 0x02, 0x40, 0x01, 0x80, 0x00] := by
  decide +kernel
/-- V31: the pivot row after pass 1 of row 0, and the matrix after step 0. -/
theorem test_pivotStep : matGet Params.t16 (pass1 Params.t16 0 toyMat) 0 0 = 0x61
    ∧ pivotStep Params.t16 0 toyMat
      = .done [0x61, 0x8A, 0xFC, 0x7E, 0xE6, 0x46, 0x22, 0xEE, 0x3E, 0x9D, 0x4A, 0x47, 0xA6, 0xF4, 0x1E, 0x5E] := by
  decide +kernel
/-- V30: T copied from a reduced matrix. -/
theorem test_pkSer : (after (exec .pkSer (withMat toyReduced))).mem.pk = [0xFB, 0x2D, 0x66, 0xD8, 0xCD, 0xC3, 0xB2, 0x7C] := by
  decide +kernel
/-- V39 (c): the copy is not gated by FAIL. -/
theorem test_pkSer_ungated : (after (exec .pkSer (withMat singularMat))).mem.pk = [0x01, 0, 0, 0, 0, 0, 0, 0]
    ∧ (after (exec .pkSer (withMat singularMat))).status = 0xFFFFFFFF := by decide +kernel
/-- V30: key generation from the secret polynomial and the toy seed. -/
theorem test_pkGen : (after (exec .pkGen toy)).mem.pk = [0xFB, 0x2D, 0x66, 0xD8, 0xCD, 0xC3, 0xB2, 0x7C]
    ∧ (after (exec .pkGen toy)).status = 0x00000000 := by decide +kernel
/-- V32: the failure leaves MAT after step 5, and PK unwritten. -/
theorem test_pkGen_fails : (after (exec .pkGen (withSk [0x01, 0x00, 0x02, 0x00]))).mem.mat = failedMat
    ∧ (after (exec .pkGen (withSk [0x01, 0x00, 0x02, 0x00]))).mem.pk = List.replicate 8 0xEE
    ∧ (after (exec .pkGen (withSk [0x01, 0x00, 0x02, 0x00]))).status = 0xFFFFFFFF := by decide +kernel

/-- V40 as bits, column 0 first: QG's toy scenario, and the same polynomial with the support of a constant seed. -/
def bitsOf (rows : List (List Nat)) : List (List Bool) := rows.map (List.map (fun n => n == 1))

theorem test_bitReduce_success : bitReduceFrom 6 6 0 (bitsOf
      [[1,1,0,0,0,0,0,0], [0,0,0,0,1,1,1,1], [0,0,1,1,1,1,0,0], [0,1,1,1,1,1,1,1], [0,0,1,1,0,1,1,0], [0,0,0,1,1,0,1,1]])
    = (true, bitsOf
      [[1,0,0,0,0,0,1,1], [0,1,0,0,0,0,1,1], [0,0,1,0,0,0,1,0], [0,0,0,1,0,0,0,1], [0,0,0,0,1,0,1,0], [0,0,0,0,0,1,0,1]]) := by
  decide +kernel
theorem test_bitReduce_failure : (bitReduceFrom 6 6 0 (bitsOf
      [[1,0,0,0,1,0,0,0], [0,1,0,1,0,1,0,1], [0,1,1,0,0,1,1,0], [0,1,1,1,1,1,1,1], [0,0,1,1,0,1,1,0], [0,1,0,1,0,0,1,1]])).1
    = false := by decide +kernel

/-! ## Steps, host moves, reset -/

/-- A command runs as the first thing after reset, whatever the unspecified contents are (PR1). -/
theorem test_step_gfMul : (after (step (State.reset.withFetchWord 32 0x12000002))).fr = 0x001B := by decide +kernel
theorem test_step_redRun : step (State.reset.withFetchWord 32 0x80000000) = exec .redRun { State.reset with index := 1 } := rfl
/-- PR5: a refused word. -/
theorem test_step_undefined : step (State.reset.withFetchWord 32 0xB0000000)
    = .refused (.undefinedWord 0xB0000000 (.reservedOp 0xB)) := rfl
/-- R58, R100: a value offered as an element is masked, here to 4 bits. -/
theorem test_hostWrite_masks : (after (step (pend (.hostWrite .g 2 0x1FF7)))).mem.g = [0x1, 0x3, 0x7] := by
  decide +kernel
theorem test_hostRead : (after (step (pend (.hostRead .perm 15)))).replies = [.cell .perm 15 0xA5A5A5A5] := by
  decide +kernel
theorem test_hostReadReg : (after (step (pend (.hostReadReg .status)))).replies = [.reg .status 0xFFFFFFFF] := by
  decide +kernel
theorem test_reset_clears_status : (after (step (pend .reset))).status = 0 := by decide +kernel

/-! ## Witnesses: for each statement with hypotheses, values that meet them all, at the ends of their ranges -/

theorem witness_EncodeOfDecodeIsTheWord : decode 0x13FFFFFF#32 = .ok (.gfMul 0x1FFF 0x1FFF) := by decide
theorem witness_DecodingFollowsMaskAndMatch : 0x13FFFFFF#32 &&& Opcode.gfMul.maskBits = Opcode.gfMul.matchBits
    ∧ ∀ o : Opcode, 0xA0000001#32 &&& o.maskBits ≠ o.matchBits := ⟨by decide, fun o => by cases o <;> decide⟩
/-- One word for each clause, at the ends of its range. -/
theorem witness_ReservedAndIllegalWordsAreRefused : (0x0FFFFFFF#32).extractLsb' 28 4 = 0x0#4
    ∧ 0xB#4 ≤ (0xB0000000#32).extractLsb' 28 4 ∧ 0xB#4 ≤ (0xFFFFFFFF#32).extractLsb' 28 4
    ∧ ((0x14000000#32).extractLsb' 28 4 = 0x1#4 ∧ (0x14000000#32).extractLsb' 26 2 ≠ 0#2)
    ∧ (0x2#4 ≤ (0x20002000#32).extractLsb' 28 4 ∧ (0x20002000#32).extractLsb' 28 4 ≤ 0x3#4
      ∧ (0x20002000#32).extractLsb' 13 15 ≠ 0#15)
    ∧ (0x2#4 ≤ (0x38000000#32).extractLsb' 28 4 ∧ (0x38000000#32).extractLsb' 28 4 ≤ 0x3#4
      ∧ (0x38000000#32).extractLsb' 13 15 ≠ 0#15)
    ∧ (0x4#4 ≤ (0x40000001#32).extractLsb' 28 4 ∧ (0x40000001#32).extractLsb' 28 4 ≤ 0xA#4
      ∧ (0x40000001#32).extractLsb' 0 28 ≠ 0#28)
    ∧ (0x4#4 ≤ (0xA8000000#32).extractLsb' 28 4 ∧ (0xA8000000#32).extractLsb' 28 4 ≤ 0xA#4
      ∧ (0xA8000000#32).extractLsb' 0 28 ≠ 0#28)
    ∧ ∀ w, (pend (.command w)).pending = .command w :: [] := by
  refine ⟨?_, ?_, ?_, ?_, ?_, ?_, ?_, ?_, fun _ => rfl⟩ <;> decide
theorem witness_AssemblerLinesStandForOneCommand :
    ({ mnemonic := "GF.INV", operands := [0x1FFF] } : AsmLine).assemble = some (.gfInv 0x1FFF)
      ∧ ∃ n ∈ ({ mnemonic := "GF.INV", operands := [0x2000] } : AsmLine).operands, 0x1FFF < n := by decide
theorem witness_StepRunsTheDecodedCommand :
    (pend (.command 0x80000000#32)).pending = .command 0x80000000#32 :: [] ∧ decode 0x80000000#32 = .ok .redRun := by decide
theorem witness_CommandIndexAdvancesByOne :
    (∃ t, step (pend (.command 0x40000000#32)) = .next t) ∧ (∃ t, step (pend (.hostReadReg .fr)) = .next t)
      ∧ ∀ w, HostMove.hostReadReg .fr ≠ .command w ∧ HostMove.hostReadReg .fr ≠ .resetDuring w :=
  ⟨⟨_, rfl⟩, ⟨_, rfl⟩, fun _ => ⟨HostMove.noConfusion, HostMove.noConfusion⟩⟩
theorem witness_IdleUnitHoldsItsState : toy.pending = [] := rfl
/-- A legal run with every legal kind of item, and a run with an undefined word after a legal move. -/
theorem witness_RunsOfLegalMovesComplete :
    ({ toy with pending := [.hostWrite .pk 7 0, .command 0xA0000000#32, .hostRead .pk 7, .hostReadReg .fr, .reset] }
        : State).runLegal = true
      ∧ ({ toy with pending := [.hostReadReg .status] ++ .command 0xB0000000#32 :: [.reset] } : State).pending
        = [.hostReadReg .status] ++ .command 0xB0000000#32 :: [.reset]
      ∧ [HostMove.hostReadReg .status].all (HostMove.legal toy.params) = true
      ∧ decode 0xB0000000#32 = .error (.reservedOp 0xB) ∧ [HostMove.hostReadReg .status].length < 2 := by decide
/-- The first and the last cell of every space at T16, and the largest byte. -/
theorem witness_HostAccessesMoveOneCell :
    (∀ m, (pend m).Inv ∧ (pend m).pending = m :: []) ∧ (∀ sp ∈ [Space.sk, .g, .perm, .l, .inv, .mat, .pk], 0 < toy.params.cells sp)
      ∧ 3 < toy.params.cells .sk ∧ 2 < toy.params.cells .g ∧ 15 < toy.params.cells .perm ∧ 15 < toy.params.cells .l
      ∧ 15 < toy.params.cells .inv ∧ 15 < toy.params.cells .mat ∧ 7 < toy.params.cells .pk ∧ 0xFF < 2 ^ 8 := by
  refine ⟨fun m => ⟨pend_inv m, rfl⟩, ?_⟩
  decide
theorem witness_HostByteWritesKeepTheLowByte : (pend (.hostWrite .mat 15 0x1FF)).Inv
    ∧ (pend (.hostWrite .mat 15 0x1FF)).pending = .hostWrite .mat 15 0x1FF :: [] ∧ 15 < toy.params.cells .mat :=
  ⟨pend_inv _, rfl, by decide⟩
/-- The first index outside each space. -/
theorem witness_HostAccessOutOfRangeIsRefused : toy.params.cells .sk ≤ 4 ∧ toy.params.cells .g ≤ 3
    ∧ toy.params.cells .perm ≤ 16 ∧ toy.params.cells .l ≤ 16 ∧ toy.params.cells .inv ≤ 16 ∧ toy.params.cells .mat ≤ 16
    ∧ toy.params.cells .pk ≤ 8 ∧ (pend (.hostWrite .pk 8 0)).pending = .hostWrite .pk 8 0 :: []
    ∧ (pend (.hostRead .pk 8)).pending = .hostRead .pk 8 :: [] := by decide
theorem witness_ResetClearsStatus : (pend .reset).pending = .reset :: [] := rfl
theorem witness_ResetDuringACommandAbandonsIt :
    (pend (.resetDuring 0x50000000#32)).pending = .resetDuring 0x50000000#32 :: [] ∧ decode 0x50000000#32 = .ok .supGen := by
  decide
/-- The least valid GFBITS beside T16 and the hardware (test_params_hw), for every statement over valid parameter sets. -/
theorem witness_ResetMeetsTheInvariant : Params.t16.wellFormed = true
    ∧ ({ gfbits := 1, sysT := 0, sysN := 0, fieldPoly := 3 } : Params).wellFormed = true := by decide +kernel
theorem witness_EveryStepKeepsTheInvariant :
    (pend (.command 0xA0000000#32)).Inv ∧ ∃ t, step (pend (.command 0xA0000000#32)) = .next t := ⟨pend_inv _, _, rfl⟩
theorem witness_EveryStepKeepsTheParameters : ∃ t, step (pend .reset) = .next t := ⟨_, rfl⟩
theorem witness_CommandsWriteOnlyWhatTheTableSays : ∃ t, exec .pkGen toy = .next t ∧ Space.sk ∉ opcodeWrites Opcode.pkGen
    ∧ opcodeWritesFr Opcode.pkGen = false ∧ opcodeWritesStatus Opcode.pkSer = false := ⟨_, rfl, by decide⟩
/-- Two states that agree on what ROOT.EVAL reads and differ elsewhere. -/
theorem witness_CommandsDependOnlyOnWhatTheyRead : toy.Inv ∧ (withMat singularMat).Inv
    ∧ toy.params = (withMat singularMat).params
    ∧ (∀ sp ∈ opcodeReads Opcode.rootEval, Memory.same sp toy.mem (withMat singularMat).mem)
    ∧ toy.mem ≠ (withMat singularMat).mem := by
  refine ⟨toy_inv, singular_inv, rfl, ?_, by decide⟩
  intro sp h
  simp only [opcodeReads, List.mem_cons, List.not_mem_nil, or_false] at h
  rcases h with rfl | rfl <;> rfl
theorem witness_FailIsWrittenByTheReductionOnly : Instr.gfInv 0 ≠ .redRun ∧ Instr.gfInv 0 ≠ .pkGen := by decide
theorem witness_FieldResultRegisterIsWriteOnlyToCommands : opcodeWritesFr Opcode.pkGen = false := by decide
theorem witness_FieldMultiplicationLaws : Params.hw.wellFormed = true ∧ elemOk Params.hw 0x1234 ∧ elemOk Params.hw 0x0ABC
    ∧ elemOk Params.hw 0x1FFF ∧ gfMul Params.hw 0 0x1FFF = 0 := by decide +kernel
/-- 7 * 3 needs no reduction and 8 * 2 needs one at T16 (V13). -/
theorem witness_FieldProductIsTheUniqueResidue : Params.t16.wellFormed = true ∧ elemOk Params.t16 0x7 ∧ elemOk Params.t16 0x3
    ∧ clmul Params.t16.gfbits 0x7 0x3 = 0x9 ^^^ clmul (Params.t16.gfbits + 1) 0 Params.t16.fieldPoly
    ∧ clmul Params.t16.gfbits 0x8 0x2 = 0x3 ^^^ clmul (Params.t16.gfbits + 1) 1 Params.t16.fieldPoly
    ∧ 0x9 < 2 ^ Params.t16.gfbits := by decide +kernel
theorem witness_FieldInverseIsTheUniqueInverse : Params.t16.wellFormed = true ∧ elemOk Params.t16 0x2 ∧ (0x2 : Elem) ≠ 0
    ∧ elemOk Params.t16 0x9 ∧ gfMul Params.t16 0x2 0x9 = 1 := by decide +kernel
theorem witness_FieldInverseIsThePower : ({ gfbits := 2, sysT := 0, sysN := 0, fieldPoly := 7 } : Params).wellFormed = true
    ∧ elemOk { gfbits := 2, sysT := 0, sysN := 0, fieldPoly := 7 } 0x3 ∧ Params.t16.wellFormed = true
    ∧ 2 ≤ Params.t16.gfbits ∧ elemOk Params.t16 0xF := by decide +kernel
theorem witness_BitReversalIsAnInvolution : Params.hw.gfbits ≤ 13 ∧ elemOk Params.hw 0x1FFF ∧ elemOk Params.t16 0xF
    ∧ gfBitrev Params.t16 0x1 = 0x8 := by decide +kernel
theorem witness_GfMulWritesTheProduct : toy.params.wellFormed = true ∧ 0x1230 &&& toy.params.gfmask = 0
    ∧ 0x1231 &&& toy.params.gfmask = 1 ∧ State.reset.params = Params.hw := ⟨toy_inv.params, by decide, by decide, rfl⟩
theorem witness_GfInvWritesTheInverse : Params.t16.wellFormed = true ∧ elemOk Params.t16 0xF
    ∧ State.reset.params = Params.hw := ⟨toy_inv.params, by decide, rfl⟩
/-- A palindrome at T16. -/
theorem witness_GfBitrevWritesTheReversal : Params.t16.wellFormed = true ∧ elemOk Params.t16 0x9
    ∧ (∀ i, i < Params.t16.gfbits → (0x9 : Elem).getLsbD i = (0x9 : Elem).getLsbD (Params.t16.gfbits - 1 - i))
    ∧ State.reset.params = Params.hw := ⟨toy_inv.params, by decide, by decide, rfl⟩
theorem witness_SkLoadgLoadsTheCoefficients : (withSk [0xF1, 0xFF, 0x23, 0xA0]).Inv
    ∧ (withSk [0xF1, 0xFF, 0x23, 0xA0]).params = Params.t16 ∧ 1 < Params.t16.sysT :=
  ⟨inv_of_check (by decide +kernel), rfl, by decide⟩
theorem witness_HornerEvaluatesThePolynomial : Params.t16.wellFormed = true ∧ (∀ x ∈ toy.mem.g, elemOk Params.t16 x)
    ∧ elemOk Params.t16 0xF := ⟨toy_inv.params, toy_inv.memory.2.2.2.2.2.2.2.1, by decide⟩
/-- L[11] = 0, L[14] = 1 and a root at position 0 (V34). -/
theorem witness_RootEvalWritesTheReciprocals : (withG [0x0, 0x6, 0x1]).Inv ∧ cell toySupport 11 = 0 ∧ cell toySupport 14 = 1
    ∧ gfEval Params.t16 [0x0, 0x6, 0x1] (cell toySupport 0) = 0 := ⟨rooted_inv, by decide +kernel⟩
/-- Roots at positions 0 and 11 (V34). -/
theorem witness_RootGivesAZeroColumn : (withG [0x0, 0x6, 0x1]).Inv ∧ 11 < (withG [0x0, 0x6, 0x1]).params.sysN
    ∧ gfEval Params.t16 (withG [0x0, 0x6, 0x1]).mem.g (cell (withG [0x0, 0x6, 0x1]).mem.l 11) = 0 :=
  ⟨rooted_inv, by decide +kernel⟩
theorem witness_RootBelowTheRowCountFails : (withG [0x0, 0x6, 0x1]).Inv ∧ 0 < (withG [0x0, 0x6, 0x1]).params.pkNrows
    ∧ gfEval Params.t16 (withG [0x0, 0x6, 0x1]).mem.g (cell (withG [0x0, 0x6, 0x1]).mem.l 0) = 0 :=
  ⟨rooted_inv, by decide +kernel⟩
theorem witness_SupGenSortsTheCompositeKeys : toy.Inv ∧ 15 < toy.params.permLen ∧ 15 < toy.params.sysN :=
  ⟨toy_inv, by decide +kernel⟩
/-- Equal seed words (V22). -/
theorem witness_SupGenGivesAPermutation : (withPerm (List.replicate 16 0x5)).Inv
    ∧ (∀ i, i < 16 → cell (withPerm (List.replicate 16 0x5)).mem.perm i = cell (withPerm (List.replicate 16 0x5)).mem.perm 0)
    ∧ 15 < toy.params.permLen := ⟨inv_of_check (by decide +kernel), by decide +kernel⟩
theorem witness_SupportIsDuplicateFree : toy.Inv ∧ toy.params.sysN = 2 ^ toy.params.gfbits := ⟨toy_inv, by decide⟩
theorem witness_SecondSupGenInvertsThePermutation : toy.Inv ∧ 15 < toy.params.permLen ∧ 15 < toy.params.sysN :=
  witness_SupGenSortsTheCompositeKeys
theorem witness_MatBuildClosedForm : toy.Inv ∧ 1 < toy.params.sysT ∧ 3 < toy.params.gfbits ∧ 15 < toy.params.sysN :=
  ⟨toy_inv, by decide⟩
/-- A zero reciprocal at position 0, and the support value 0 at position 11. -/
theorem witness_ZeroColumnsOfTheBuiltMatrix : (rootEval (withG [0x0, 0x6, 0x1])).Inv
    ∧ cell (rootEval (withG [0x0, 0x6, 0x1])).mem.inv 0 = 0 ∧ cell toy.mem.l 11 = 0 ∧ 0 < toy.params.sysT
    ∧ 11 < toy.params.sysN := ⟨inv_of_check (by decide +kernel), by decide +kernel⟩
/-- Rows 1 and 2 of V26 differ from and agree with row 0 in its pivot column; the last row has no row below it. -/
theorem witness_Pass1GathersThePivot : Params.t16.wellFormed = true
    ∧ toyMat.length = Params.t16.pkNrows * Params.t16.rowBytes
    ∧ matBit Params.t16 toyMat 0 0 ≠ matBit Params.t16 toyMat 1 0 ∧ matBit Params.t16 toyMat 0 0 = matBit Params.t16 toyMat 2 0
    ∧ 7 < Params.t16.pkNrows := by decide +kernel
/-- V39 (b) at row 0, where the column is zero; V26, where it is not. -/
theorem witness_PivotCheckFailsOnAZeroColumn : Params.t16.wellFormed = true
    ∧ singularMat.length = Params.t16.pkNrows * Params.t16.rowBytes
    ∧ (∀ k, k < Params.t16.pkNrows → matBit Params.t16 singularMat k 0 = false)
    ∧ toyMat.length = Params.t16.pkNrows * Params.t16.rowBytes ∧ matBit Params.t16 toyMat 1 0 = true := by decide +kernel
/-- The first row of V26 after pass 1, and the last row of a systematic matrix. -/
theorem witness_Pass3ClearsThePivotColumn : Params.t16.wellFormed = true
    ∧ (pass1 Params.t16 0 toyMat).length = Params.t16.pkNrows * Params.t16.rowBytes
    ∧ matBit Params.t16 (pass1 Params.t16 0 toyMat) 0 0 = true
    ∧ toyReduced.length = Params.t16.pkNrows * Params.t16.rowBytes ∧ matBit Params.t16 toyReduced 7 7 = true
    ∧ 7 < Params.t16.pkNrows := by decide +kernel
theorem witness_EarlierColumnsStayUnitColumns : Params.t16.wellFormed = true
    ∧ toyMat.length = Params.t16.pkNrows * Params.t16.rowBytes ∧ 7 < Params.t16.pkNrows
    ∧ reduceFrom Params.t16 (7 + 1) 0 toyMat = .done toyReduced := by decide +kernel
theorem witness_SuccessLeavesSystematicForm : toy.Inv ∧ ∃ t, exec .redRun toy = .next t ∧ t.status = 0x00000000#32 :=
  ⟨toy_inv, _, rfl, by decide +kernel⟩
/-- Both outcomes. -/
theorem witness_ReductionSucceedsIffInvertible : toy.Inv ∧ (redRun toy).status = 0x00000000#32
    ∧ (withMat singularMat).Inv ∧ (redRun (withMat singularMat)).status = 0xFFFFFFFF#32 :=
  ⟨toy_inv, by decide +kernel, singular_inv, by decide +kernel⟩
/-- A failure at row 0, and one at row 6 (V32). -/
theorem witness_FailureLeavesTheLastCompletedStep : (withMat singularMat).Inv
    ∧ (∃ t, exec .redRun (withMat singularMat) = .next t ∧ t.status = 0xFFFFFFFF#32) ∧ (withMat failedMat).Inv
    ∧ ∃ t, exec .redRun (withMat failedMat) = .next t ∧ t.status = 0xFFFFFFFF#32 :=
  ⟨singular_inv, ⟨_, rfl, by decide +kernel⟩, inv_of_check (by decide +kernel), _, rfl, by decide +kernel⟩
theorem witness_ReductionKeepsSystematicForm : (withMat toyReduced).Inv
    ∧ systematic (withMat toyReduced).params (withMat toyReduced).mem.mat := by
  have h : ∀ r < 8, ∀ c < 1, matGet Params.t16 toyReduced r c = if c = r / 8 then 1#8 <<< (r % 8) else 0x00#8 := by
    decide +kernel
  exact ⟨inv_of_check (by decide +kernel), fun r c hr hc => h r hr c hc⟩
theorem witness_ByteReducerRefinesTheBitReducer : Params.t16.wellFormed = true
    ∧ toyMat.length = Params.t16.pkNrows * Params.t16.rowBytes := by decide +kernel
/-- PK_NROWS = SYS_N: nothing to copy. -/
theorem witness_PkSerCopiesTheRightPart : square.Inv ∧ square.params.pkNrows = square.params.sysN ∧ toy.Inv
    ∧ 7 < toy.params.pkNrows ∧ 0 < toy.params.pkRowBytes := ⟨square_inv, by decide +kernel, toy_inv, by decide +kernel⟩
theorem witness_KeyBitsAreTheEntriesOfT : toy.Inv ∧ (∃ t, exec .redRun toy = .next t ∧ t.status = 0x00000000#32)
    ∧ 7 < toy.params.pkNrows ∧ 0 < toy.params.pkRowBytes := ⟨toy_inv, ⟨_, rfl, by decide +kernel⟩, by decide⟩
/-- Both outcomes (V30, V32). -/
theorem witness_PkGenHasTwoOutcomes : toy.Inv ∧ (pkGen toy).status = 0x00000000#32 ∧ (withSk [0x01, 0x00, 0x02, 0x00]).Inv
    ∧ (pkGen (withSk [0x01, 0x00, 0x02, 0x00])).status = 0xFFFFFFFF#32 :=
  ⟨toy_inv, by decide +kernel, inv_of_check (by decide +kernel), by decide +kernel⟩
theorem witness_PkGenOverwritesTheWorkingBuffers : toy.Inv ∧ 1 < toy.params.sysT ∧ 15 < toy.params.sysN := ⟨toy_inv, by decide⟩
/-- Two states with one secret polynomial and one seed, and different matrices. -/
theorem witness_KeyDependsOnSecretAndSeedOnly : toy.Inv ∧ (withMat singularMat).Inv
    ∧ toy.params = (withMat singularMat).params ∧ toy.mem.sk = (withMat singularMat).mem.sk
    ∧ toy.mem.perm = (withMat singularMat).mem.perm ∧ (pkGen toy).status = 0x00000000#32 :=
  ⟨toy_inv, singular_inv, by decide +kernel⟩
theorem witness_RaisingNonSystematicOnlyWritesStatus :
    ((withMat singularMat).Inv ∧ ∃ t, exec .redRun (withMat singularMat) = .next t ∧ t.status = 0xFFFFFFFF#32)
      ∧ ∃ t mid, exec .pkGen (withSk [0x01, 0x00, 0x02, 0x00]) = .next t ∧ t.status = 0xFFFFFFFF#32
        ∧ mid = matBuild (rootEval (supGen (skLoadg (withSk [0x01, 0x00, 0x02, 0x00])))) :=
  ⟨⟨singular_inv, _, rfl, by decide +kernel⟩, _, _, rfl, by decide +kernel, rfl⟩

/-- The existence half of RootBelowTheRowCountFails (V33): roots at positions 11 and 14 only, and success. -/
theorem test_root_above_row_count : gfEval Params.t16 [0x0, 0x1, 0x1] (cell toySupport 14) = 0
    ∧ (redRun (matBuild (rootEval (withG [0x0, 0x1, 0x1])))).status = 0x00000000 := by decide +kernel

end Sys2Proof.Tests
end

section
/-! SUPPORT. STATUS and FAIL along a step (10_state.md R30 to R32, R44): what each command is as a next state, which
commands touch STATUS, and that none reads it. -/

namespace Sys2Proof.Machine

/-! ## Commands and host moves as next states -/

section exec
variable (s : State)
@[simp] theorem exec_gfMul (a b : BitVec 13) :
    exec (.gfMul a b) s = .next (s.setFr (gfMul s.params (operand s.params a) (operand s.params b))) := rfl
@[simp] theorem exec_gfInv (a : BitVec 13) :
    exec (.gfInv a) s = .next (s.setFr (gfInv s.params (operand s.params a))) := rfl
@[simp] theorem exec_gfBitrev (a : BitVec 13) :
    exec (.gfBitrev a) s = .next (s.setFr (gfBitrev s.params (operand s.params a))) := rfl
@[simp] theorem exec_skLoadg : exec .skLoadg s = .next (skLoadg s) := rfl
@[simp] theorem exec_supGen : exec .supGen s = .next (supGen s) := rfl
@[simp] theorem exec_rootEval : exec .rootEval s = .next (rootEval s) := rfl
@[simp] theorem exec_matBuild : exec .matBuild s = .next (matBuild s) := rfl
@[simp] theorem exec_redRun : exec .redRun s = .next (redRun s) := rfl
@[simp] theorem exec_pkSer : exec .pkSer s = .next (pkSer s) := rfl
@[simp] theorem exec_pkGen : exec .pkGen s = .next (pkGen s) := rfl
end exec

/-- A step with an item pending runs that item with the rest of the run behind it (70_reset_and_hazards.md R273). -/
theorem step_of_pending {s : State} {m : HostMove} {rest : List HostMove} (h : s.pending = m :: rest) :
    step s = runMove m { s with pending := rest } := by
  simp only [step, h]

/-- A step on a reset between commands resets the unit (70_reset_and_hazards.md R260). -/
theorem step_of_pending_reset {s : State} {rest : List HostMove} (h : s.pending = .reset :: rest) :
    step s = .next (resetUnit { s with pending := rest }) :=
  step_of_pending h

/-! ## FAIL after each writer of STATUS -/

theorem fail_eq_false_of_status {s : State} (h : s.status = 0x00000000#32) : s.fail = false := by
  simp [State.fail, h]

@[simp] theorem reset_status : State.reset.status = 0x00000000#32 := rfl

@[simp] theorem reset_fail : State.reset.fail = false := fail_eq_false_of_status reset_status

@[simp] theorem resetUnit_fail (s : State) : (resetUnit s).fail = false :=
  fail_eq_false_of_status (resetUnit_status s)

/-- RED.RUN leaves FAIL 0 exactly when all pivots complete (10_state.md R32). -/
theorem redRun_fail (s : State) : (redRun s).fail = !(reduce s.params s.mem.mat).ok := by
  rcases redRun_cases s with ⟨m, hm, hs⟩ | ⟨m, hm, hs⟩
  · simp [hs, hm, PivotResult.ok]
  · simp [hs, hm, PivotResult.ok]

@[simp] theorem pkSer_fail (s : State) : (pkSer s).fail = s.fail := rfl

/-- PK.GEN leaves the FAIL of its reduction: the serializer keeps it (10_state.md R32). -/
theorem pkGen_fail (s : State) : (pkGen s).fail = (pkGenReduced s).fail := by
  rcases pkGen_cases s with ⟨_, hs⟩ | ⟨_, hs⟩
  · rw [hs, pkSer_fail]
  · rw [hs]

/-! ## No command reads STATUS -/

/-- The eight commands other than RED.RUN and PK.GEN carry STATUS through, whatever it is, and do the same to the rest
of the state (10_state.md R32). -/
theorem exec_carries_status {i : Instr} (hred : i ≠ .redRun) (hgen : i ≠ .pkGen) (s : State) :
    ∃ t, exec i s = .next t ∧ t.status = s.status ∧
      ∀ v : Word, exec i { s with status := v } = .next { t with status := v } := by
  cases i with
  | redRun => exact absurd rfl hred
  | pkGen => exact absurd rfl hgen
  | _ => exact ⟨_, rfl, rfl, fun _ => rfl⟩

/-- RED.RUN overwrites STATUS without reading it: its outcome is that of the reduction of MAT. -/
theorem redRun_withStatus (s : State) (v : Word) : redRun { s with status := v } = redRun s := by
  rcases redRun_cases s with ⟨m, hm, hs⟩ | ⟨m, hm, hs⟩
  · rw [hs]; simp only [redRun, hm]; rfl
  · rw [hs]; simp only [redRun, hm]; rfl

/-- The four stages before the reduction carry STATUS through, and the reduction overwrites it. -/
theorem pkGenReduced_withStatus (s : State) (v : Word) : pkGenReduced { s with status := v } = pkGenReduced s :=
  redRun_withStatus (matBuild (rootEval (supGen (skLoadg s)))) v

theorem pkGen_withStatus (s : State) (v : Word) : pkGen { s with status := v } = pkGen s := by
  simp only [pkGen, pkGenReduced_withStatus]

/-- Changing STATUS before a command changes at most STATUS after it (10_state.md R32). -/
theorem exec_withStatus (i : Instr) (s : State) (v : Word) : ∃ t, exec i s = .next t ∧
    exec i { s with status := v } = .next (if i = .redRun ∨ i = .pkGen then t else { t with status := v }) := by
  by_cases hred : i = .redRun
  · subst hred
    exact ⟨redRun s, rfl, by simp [redRun_withStatus]⟩
  by_cases hgen : i = .pkGen
  · subst hgen
    exact ⟨pkGen s, rfl, by simp [pkGen_withStatus]⟩
  obtain ⟨t, ht, _, hv⟩ := exec_carries_status hred hgen s
  exact ⟨t, ht, by simpa [hred, hgen] using hv v⟩

/-! ## The statements -/

/-- Settles O23: the writers of FAIL one by one, then that the other commands carry STATUS through unread. -/
theorem failIsWrittenByTheReductionOnly : Obligations.FailIsWrittenByTheReductionOnly :=
  ⟨fun s => ⟨redRun s, rfl, redRun_fail s⟩,
    fun s => ⟨pkGen s, pkGenReduced s, rfl, rfl, pkGen_fail s⟩,
    ⟨reset_fail, resetUnit_fail⟩,
    fun _ s hred hgen =>
      let ⟨t, ht, hst, _⟩ := exec_carries_status hred hgen s
      ⟨t, ht, hst⟩,
    exec_withStatus⟩

/-- Settles O16: both the reset state and a reset move write STATUS 0, of which FAIL is bit 0. -/
theorem resetClearsStatus : Obligations.ResetClearsStatus :=
  ⟨reset_status, reset_fail, fun _ _ h =>
    ⟨_, step_of_pending_reset h, resetUnit_status _, resetUnit_fail _⟩⟩

end Sys2Proof.Machine
end

section
/-! SUPPORT. Words that name no command (30_encoding.md R85): the fields of a word in a row of the opcode map are the
row's own, so a word with other fields is undefined, and a step refuses it. -/

namespace Sys2Proof

/-! ## The fields a row of the opcode map fixes (R81, R83) -/

/-- Where the mask is all ones, a masked word has the bits it is matched against. -/
theorem extractLsb'_of_and_eq {w mask bits : Word} {start len : Nat} (h : w &&& mask = bits)
    (hmask : mask.extractLsb' start len = BitVec.allOnes len) :
    w.extractLsb' start len = bits.extractLsb' start len := by
  rw [← h, BitVec.extractLsb'_and, hmask, BitVec.and_allOnes]

namespace Opcode

theorem code_ne_zero (o : Opcode) : o.code ≠ 0x0#4 := by cases o <;> decide

theorem code_le (o : Opcode) : o.code ≤ 0xA#4 := by cases o <;> decide

/-- Every row masks OP in full and matches it against its code (R83). -/
theorem mask_match_op (o : Opcode) :
    o.maskBits.extractLsb' 28 4 = BitVec.allOnes 4 ∧ o.matchBits.extractLsb' 28 4 = o.code := by
  cases o <;> decide

/-- The row of format F2 requires zeros between OP and B (R81). -/
theorem mask_match_formatF2 (o : Opcode) (hop : o.code = 0x1#4) :
    o.maskBits.extractLsb' 26 2 = BitVec.allOnes 2 ∧ o.matchBits.extractLsb' 26 2 = 0#2 := by
  revert hop; cases o <;> decide

/-- The rows of format F1 require zeros between OP and A (R81). -/
theorem mask_match_formatF1 (o : Opcode) (hlo : 0x2#4 ≤ o.code) (hhi : o.code ≤ 0x3#4) :
    o.maskBits.extractLsb' 13 15 = BitVec.allOnes 15 ∧ o.matchBits.extractLsb' 13 15 = 0#15 := by
  revert hlo hhi; cases o <;> decide

/-- The rows of format N require zeros below OP (R81). -/
theorem mask_match_formatN (o : Opcode) (hlo : 0x4#4 ≤ o.code) :
    o.maskBits.extractLsb' 0 28 = BitVec.allOnes 28 ∧ o.matchBits.extractLsb' 0 28 = 0#28 := by
  revert hlo; cases o <;> decide

variable {o : Opcode} {w : Word} (hrow : w &&& o.maskBits = o.matchBits)
include hrow

/-- A field that the row masks in full and matches against zeros is zero in the row's words. -/
theorem field_eq_zero_of_row {start len : Nat} (h : o.maskBits.extractLsb' start len = BitVec.allOnes len ∧
      o.matchBits.extractLsb' start len = 0#len) : w.extractLsb' start len = 0#len :=
  (extractLsb'_of_and_eq hrow h.1).trans h.2

theorem op_eq_code_of_row : w.extractLsb' 28 4 = o.code :=
  (extractLsb'_of_and_eq hrow o.mask_match_op.1).trans o.mask_match_op.2

end Opcode

/-! ## Decoding -/

/-- A word that names a command lies in a row of the opcode map, and the command is the row's (R84). -/
theorem row_of_decode_eq_ok {w : Word} {i : Instr} (h : decode w = .ok i) :
    ∃ o : Opcode, w &&& o.maskBits = o.matchBits ∧ i = o.instr (fieldA w) (fieldB w) := by
  unfold decode at h
  split at h
  · cases h
  · next o _ =>
    split at h
    · next hrow => exact ⟨o, hrow, by cases h; rfl⟩
    · cases h

namespace Machine

/-- A step on an undefined word refuses it (R85). -/
theorem step_of_pending_undefined {s : State} {w : Word} {rest : List HostMove} {e : DecodeError}
    (hpend : s.pending = .command w :: rest) (hdec : decode w = .error e) :
    step s = .refused (.undefinedWord w e) := by
  rw [step_of_pending hpend]
  simp only [runMove, issue, hdec]

/-- Settles O4: if such a word decoded, it would lie in a row of the opcode map, whose OP is a code from 0x1 to 0xA and
whose mask requires the zeros of its format. -/
theorem reservedAndIllegalWordsAreRefused : Obligations.ReservedAndIllegalWordsAreRefused := by
  refine ⟨fun s w rest hpend hbad => ?_, by decide⟩
  cases hdec : decode w with
  | error e => exact ⟨e, step_of_pending_undefined hpend hdec⟩
  | ok i =>
    obtain ⟨o, hrow, -⟩ := row_of_decode_eq_ok hdec
    rw [Opcode.op_eq_code_of_row hrow] at hbad
    exfalso
    rcases hbad with hzero | hhigh | ⟨hop, hbits⟩ | ⟨hlo, hhi, hbits⟩ | ⟨hlo, -, hbits⟩
    · exact o.code_ne_zero hzero
    · exact absurd (BitVec.le_trans hhigh o.code_le) (by decide)
    · exact hbits (Opcode.field_eq_zero_of_row hrow (o.mask_match_formatF2 hop))
    · exact hbits (Opcode.field_eq_zero_of_row hrow (o.mask_match_formatF1 hlo hhi))
    · exact hbits (Opcode.field_eq_zero_of_row hrow (o.mask_match_formatN hlo))

end Machine
end Sys2Proof
end

section
/-! SUPPORT. gf_inv and GF.INV of 0 (40_field_arithmetic.md R106, R107): the square-and-multiply chain is a power in
GF(2)[x] modulo FIELD_POLY, which is a field of 2^GFBITS members, so the power 2^GFBITS - 2 inverts. -/

namespace Sys2Proof.Machine

variable {p : Params}

/-! ## The field has 2^GFBITS members -/

/-- The elements are the members of the field, one for one (R101). -/
theorem bijective_toField (h : p.wellFormed = true) :
    Function.Bijective fun a : { a : Elem // elemOk p a } => toField p a := by
  refine ⟨fun a b hab => Subtype.ext ((toField_inj h a.2 b.2).mp hab), fun x => ?_⟩
  obtain ⟨a, ha, hx⟩ := exists_toField h x
  exact ⟨⟨a, ha⟩, hx⟩

/-- The elements are the numbers below 2^GFBITS (R100). -/
theorem card_elemOk (h13 : p.gfbits ≤ 13) : Nat.card { a : Elem // elemOk p a } = 2 ^ p.gfbits := by
  have hle : 2 ^ p.gfbits ≤ 2 ^ 13 := Nat.pow_le_pow_right (by omega) h13
  rw [← Nat.card_fin (2 ^ p.gfbits)]
  exact Nat.card_congr
    { toFun a := ⟨a.1.toNat, a.2⟩
      invFun i := ⟨BitVec.ofNatLT i (i.2.trans_le hle), i.2⟩
      left_inv _ := rfl
      right_inv _ := rfl }

theorem card_field (h : p.wellFormed = true) : Nat.card (AdjoinRoot (toPoly p.fieldPoly)) = 2 ^ p.gfbits := by
  obtain ⟨_, h13, _⟩ := Params.wellFormed_field h
  rw [← card_elemOk h13, Nat.card_congr (Equiv.ofBijective _ (bijective_toField h))]

/-- A nonzero element to the power 2^GFBITS - 1 is 1 in the field (R107). -/
theorem toField_pow_card_sub_one (h : p.wellFormed = true) {a : Elem} (ha : elemOk p a) (h0 : a ≠ 0) :
    toField p a ^ (2 ^ p.gfbits - 1) = 1 := by
  obtain ⟨_, _, _, _, hirr⟩ := Params.wellFormed_field h
  have : Fact (Irreducible (toPoly p.fieldPoly)) := ⟨hirr⟩
  have hne : toField p a ≠ 0 := by
    rw [← toField_zero p, Ne, toField_inj h ha (elemOk_zero p)]; exact h0
  have : Finite (AdjoinRoot (toPoly p.fieldPoly)) :=
    Nat.finite_of_card_ne_zero (by rw [card_field h]; exact (Nat.two_pow_pos _).ne')
  have := Fintype.ofFinite (AdjoinRoot (toPoly p.fieldPoly))
  rw [← card_field h, Nat.card_eq_fintype_card]
  exact FiniteField.pow_card_sub_one_eq_one _ hne

/-! ## gf_inv -/

theorem elemOk_gfInvChain (h1 : 1 ≤ p.gfbits) {a : Elem} (ha : elemOk p a) (n : Nat) :
    elemOk p (gfInvChain p a n).1 ∧ elemOk p (gfInvChain p a n).2 := by
  cases n with
  | zero => exact ⟨ha, elemOk_one p h1⟩
  | succ n => exact ⟨elemOk_gfMul p _ _, elemOk_gfMul p _ _⟩

/-- After `n` rounds the chain holds `a^(2^n)` and `a^2 * a^4 * ... * a^(2^n) = a^(2^(n+1) - 2)` (R107). -/
theorem toField_gfInvChain (h : p.wellFormed = true) {a : Elem} (ha : elemOk p a) (n : Nat) :
    toField p (gfInvChain p a n).1 = toField p a ^ 2 ^ n ∧
      toField p (gfInvChain p a n).2 = toField p a ^ (2 ^ (n + 1) - 2) := by
  obtain ⟨h1, _⟩ := Params.wellFormed_field h
  induction n with
  | zero => exact ⟨(pow_one _).symm, (toField_one p).trans (pow_zero _).symm⟩
  | succ n ih =>
    obtain ⟨iht, ihr⟩ := ih
    obtain ⟨hokt, hokr⟩ := elemOk_gfInvChain h1 ha n
    have hsquare : toField p (gfInvChain p a (n + 1)).1 = toField p a ^ 2 ^ (n + 1) := by
      rw [gfInvChain, toField_gfMul h hokt hokt, iht, ← pow_add, ← two_mul, pow_succ']
    refine ⟨hsquare, ?_⟩
    calc toField p (gfInvChain p a (n + 1)).2
        = toField p (gfInvChain p a n).2 * toField p (gfInvChain p a (n + 1)).1 :=
          toField_gfMul h hokr (elemOk_gfMul p _ _)
      _ = toField p a ^ (2 ^ (n + 1) - 2 + 2 ^ (n + 1)) := by rw [ihr, hsquare, ← pow_add]
      _ = toField p a ^ (2 ^ (n + 1 + 1) - 2) := by
          congr 1
          have := Nat.two_pow_pos n
          omega

/-- gf_inv of a nonzero element is the power 2^GFBITS - 2 in the field (R107). -/
theorem toField_gfInv (h : p.wellFormed = true) {a : Elem} (ha : elemOk p a) (h0 : a ≠ 0) :
    toField p (gfInv p a) = toField p a ^ (2 ^ p.gfbits - 2) := by
  obtain ⟨h1, _⟩ := Params.wellFormed_field h
  rw [gfInv, if_neg h0, (toField_gfInvChain h ha _).2, Nat.sub_add_cancel h1]

/-- Two elements have product 1 exactly when they have in the field. -/
theorem gfMul_eq_one_iff (h : p.wellFormed = true) {a b : Elem} (ha : elemOk p a) (hb : elemOk p b) :
    gfMul p a b = 1 ↔ toField p a * toField p b = 1 := by
  obtain ⟨h1, _⟩ := Params.wellFormed_field h
  rw [← toField_gfMul h ha hb, ← toField_one p, toField_inj h (elemOk_gfMul p a b) (elemOk_one p h1)]

/-- gf_inv inverts (R106): with one factor more, its power is the one that is 1. -/
theorem gfMul_gfInv (h : p.wellFormed = true) {a : Elem} (ha : elemOk p a) (h0 : a ≠ 0) :
    gfMul p a (gfInv p a) = 1 := by
  obtain ⟨h1, _⟩ := Params.wellFormed_field h
  have hpow : 2 ^ 1 ≤ 2 ^ p.gfbits := Nat.pow_le_pow_right (by omega) h1
  rw [gfMul_eq_one_iff h ha (elemOk_gfInv p h1 a), toField_gfInv h ha h0, ← pow_succ',
    show 2 ^ p.gfbits - 2 + 1 = 2 ^ p.gfbits - 1 by omega]
  exact toField_pow_card_sub_one h ha h0

/-- An element has at most one inverse. -/
theorem eq_of_gfMul_eq_one (h : p.wellFormed = true) {a y z : Elem} (ha : elemOk p a) (hy : elemOk p y)
    (hz : elemOk p z) (hay : gfMul p a y = 1) (haz : gfMul p a z = 1) : y = z :=
  (toField_inj h hy hz).mp
    (inv_unique ((gfMul_eq_one_iff h ha hy).mp hay) ((gfMul_eq_one_iff h ha hz).mp haz))

/-- GF.INV of 0 writes 0: the masked operand is 0, and so is its gf_inv (R106, R111). -/
theorem exec_gfInv_zero (s : State) : exec (.gfInv 0) s = .next (s.setFr 0) := by
  rw [exec_gfInv, operand_of_elemOk s.params (elemOk_zero s.params), gfInv_zero]

/-- Settles O27: gf_inv is the power 2^GFBITS - 2 in a field of 2^GFBITS members. -/
theorem fieldInverseIsTheUniqueInverse : Obligations.FieldInverseIsTheUniqueInverse := by
  refine ⟨fun p a h ha h0 => ?_, gfInv_zero, exec_gfInv_zero⟩
  obtain ⟨h1, _⟩ := Params.wellFormed_field h
  have hinv := elemOk_gfInv p h1 a
  exact ⟨hinv, gfMul_gfInv h ha h0, fun y hy hay => eq_of_gfMul_eq_one h ha hy hinv hay (gfMul_gfInv h ha h0)⟩

end Sys2Proof.Machine
end

section
/-! SUPPORT. gf_bitrev and GF.BITREV (40_field_arithmetic.md R108, R112): gf_bitrev fixes the palindromes, of which 0 and
GFMASK are two, and takes bit 0 to bit GFBITS - 1. -/

namespace Sys2Proof.Machine

variable {p : Params}

/-! ## The bits of an element and of its reversal -/

/-- An element has no bit at or above GFBITS (R100). -/
theorem getLsbD_of_elemOk {a : Elem} (ha : elemOk p a) {i : Nat} (hi : p.gfbits ≤ i) : a.getLsbD i = false :=
  Nat.testBit_lt_two_pow (ha.trans_le (Nat.pow_le_pow_right two_pos hi))

theorem getLsbD_gfmask (h13 : p.gfbits ≤ 13) (i : Nat) : p.gfmask.getLsbD i = decide (i < p.gfbits) := by
  rw [Params.gfmask, BitVec.getLsbD_ofNat, Nat.testBit_two_pow_sub_one, ← Bool.decide_and, decide_eq_decide]
  omega

/-- gf_bitrev fixes the palindromes (R112). -/
theorem gfBitrev_of_palindrome (h13 : p.gfbits ≤ 13) {a : Elem} (ha : elemOk p a)
    (hpal : ∀ i, i < p.gfbits → a.getLsbD i = a.getLsbD (p.gfbits - 1 - i)) : gfBitrev p a = a := by
  apply BitVec.eq_of_getLsbD_eq
  intro i _
  rw [getLsbD_gfBitrev p h13]
  by_cases hi : i < p.gfbits
  · simp [hi, hpal i hi]
  · simp [hi, getLsbD_of_elemOk ha (not_lt.mp hi)]

theorem gfBitrev_zero (h13 : p.gfbits ≤ 13) : gfBitrev p 0 = 0 :=
  gfBitrev_of_palindrome h13 (elemOk_zero p) fun i _ => by simp

theorem gfBitrev_gfmask (h13 : p.gfbits ≤ 13) : gfBitrev p p.gfmask = p.gfmask :=
  gfBitrev_of_palindrome h13 (toNat_gfmask_lt p) fun i hi => by
    simp only [getLsbD_gfmask h13, decide_eq_decide]
    omega

/-- gf_bitrev takes bit 0 to bit GFBITS - 1 (R112). -/
theorem gfBitrev_one (h1 : 1 ≤ p.gfbits) (h13 : p.gfbits ≤ 13) :
    gfBitrev p 1 = BitVec.twoPow 13 (p.gfbits - 1) := by
  apply BitVec.eq_of_getLsbD_eq
  intro i _
  have hone : (1 : Elem) = 1#13 := rfl
  rw [getLsbD_gfBitrev p h13, BitVec.getLsbD_twoPow, hone, BitVec.getLsbD_one]
  simp only [← Bool.decide_and, decide_eq_decide]
  omega

theorem toNat_gfBitrev_one (h1 : 1 ≤ p.gfbits) (h13 : p.gfbits ≤ 13) :
    (gfBitrev p 1).toNat = 2 ^ (p.gfbits - 1) := by
  rw [gfBitrev_one h1 h13, BitVec.toNat_twoPow_of_lt (by omega)]

/-! ## GF.BITREV -/

/-- The example of R112, at the hardware parameters. -/
theorem exec_gfBitrev_hw {s : State} (hs : s.params = Params.hw) :
    exec (.gfBitrev 0x1234) s = .next (s.setFr 0x0589) := by
  have hvalue : gfBitrev Params.hw (operand Params.hw 0x1234) = 0x0589 := by decide
  rw [exec_gfBitrev, hs, hvalue]

/-- Settles O32: the command writes gf_bitrev of the masked operand by definition; 0 and GFMASK are palindromes. -/
theorem gfBitrevWritesTheReversal : Obligations.GfBitrevWritesTheReversal := by
  refine ⟨exec_gfBitrev, fun p h => ?_, by decide, fun _ hs => exec_gfBitrev_hw hs⟩
  obtain ⟨h1, h13, _⟩ := Params.wellFormed_field h
  exact ⟨gfBitrev_zero h13, gfBitrev_gfmask h13, toNat_gfBitrev_one h1 h13, fun _ => gfBitrev_of_palindrome h13⟩

end Sys2Proof.Machine
end

section
/-! SUPPORT. SUP.GEN as a sort of numbers (41_support_generator.md R122 to R126): at 2^GFBITS indices the composite keys
are the numbers `seed word * 2^31 + index`, and no two of them are equal. -/

namespace Sys2Proof.Machine

variable {p : Params}

/-- An index of PERM fits the low 31 bits of a composite key (R122). -/
theorem lt_two_pow_of_lt_permLen (h13 : p.gfbits ≤ 13) {i : Nat} (hi : i < p.permLen) : i < 2 ^ 31 :=
  hi.trans_le (Nat.pow_le_pow_right two_pos (by omega))

/-! ## The keys as numbers -/

/-- The composite keys are the numbers `seed word * 2^31 + index` (R122). -/
theorem compositeKeys_map_toNat (h13 : p.gfbits ≤ 13) (perm : List Word) :
    (compositeKeys p perm).map BitVec.toNat =
      (List.range p.permLen).map fun i => (cell perm i).toNat * 2 ^ 31 + i := by
  rw [compositeKeys, List.map_map]
  exact List.map_congr_left fun i hi =>
    toNat_compositeKey perm (lt_two_pow_of_lt_permLen h13 (List.mem_range.mp hi))

/-- The keys are pairwise distinct: each holds its own index in its low 31 bits (R123). -/
theorem nodup_compositeKeys_map_toNat (h13 : p.gfbits ≤ 13) (perm : List Word) :
    ((compositeKeys p perm).map BitVec.toNat).Nodup := by
  rw [compositeKeys_map_toNat h13]
  refine List.nodup_range.map_on fun i hi j hj hij => ?_
  have hi31 := lt_two_pow_of_lt_permLen h13 (List.mem_range.mp hi)
  have hj31 := lt_two_pow_of_lt_permLen h13 (List.mem_range.mp hj)
  omega

/-- The sorted keys ascend strictly, since they ascend and are distinct (R123). -/
theorem sortedKeys_map_toNat_pairwise_lt (h13 : p.gfbits ≤ 13) (perm : List Word) :
    ((sortedKeys p perm).map BitVec.toNat).Pairwise (· < ·) := by
  have hle : ((sortedKeys p perm).map BitVec.toNat).Pairwise (· ≤ ·) :=
    List.pairwise_map.mpr (sortedKeys_pairwise p perm)
  have hne : ((sortedKeys p perm).map BitVec.toNat).Nodup :=
    ((sortedKeys_perm p perm).map BitVec.toNat).nodup_iff.mpr (nodup_compositeKeys_map_toNat h13 perm)
  exact hle.imp₂ (fun _ _ => lt_of_le_of_ne) hne

/-- A buffer read as numbers has the same cells. -/
theorem getD_map_toNat {w : Nat} (buf : List (BitVec w)) (i : Nat) :
    (buf.map BitVec.toNat).getD i 0 = (cell buf i).toNat := by
  have h := List.getD_map buf (0 : BitVec w) BitVec.toNat (n := i)
  rwa [BitVec.ofNat_eq_ofNat, BitVec.toNat_zero] at h

/-! ## SUP.GEN -/

/-- Settles O38: the list of numbers is that of the sorted keys, and the two loops fill PERM and L from it. -/
theorem supGenSortsTheCompositeKeys : Obligations.SupGenSortsTheCompositeKeys := by
  intro s hs
  obtain ⟨-, h13, -⟩ := Params.wellFormed_field hs.params
  obtain ⟨-, -, hperm, hl, -⟩ := hs.memory
  refine ⟨_, _, rfl, (length_permOverwrite ..).trans hperm, (length_supportFill ..).trans hl,
    (sortedKeys s.params s.mem.perm).map BitVec.toNat, ?_, sortedKeys_map_toNat_pairwise_lt h13 _,
    fun r hr => ?_, fun i hi => cell_supportFill _ _ hl hi⟩
  · rw [← compositeKeys_map_toNat h13]
    exact (sortedKeys_perm s.params s.mem.perm).map BitVec.toNat
  · rw [getD_map_toNat]
    exact toNat_cell_permOverwrite s.params h13 _ hperm hr

end Sys2Proof.Machine
end

section
/-! SUPPORT. The evaluator (42_goppa_evaluator.md R141 to R146): SK.LOADG's buffer cell by cell, and Horner's rule as the
sum `G[0] + G[1] a + ... + G[SYS_T] a^SYS_T` in GF(2)[x] modulo FIELD_POLY. -/

namespace Sys2Proof.Machine

variable {p : Params}

/-! ## SK.LOADG -/

/-- The example of R142, whatever G held. -/
theorem loadCoefficients_t16 {g : List Elem} (hg : g.length = 3) :
    loadCoefficients Params.t16 [0xF1, 0xFF, 0x23, 0xA0] g = [0x1, 0x3, 0x1] := by
  have hcells : ∀ i < 3, (if i = Params.t16.sysT then 1 else coefficient Params.t16 [0xF1, 0xFF, 0x23, 0xA0] i) =
      cell [0x1, 0x3, 0x1] i := by decide
  refine ext_cell (by simpa using hg) fun i hi => ?_
  rw [length_loadCoefficients, hg] at hi
  rw [cell_loadCoefficients Params.t16 _ hg hi, hcells i hi]

/-- Settles O33: every cell of G below SYS_T is a coefficient, and the last one the leading 1. -/
theorem skLoadgLoadsTheCoefficients : Obligations.SkLoadgLoadsTheCoefficients := by
  intro s hs
  obtain ⟨-, h13, -⟩ := Params.wellFormed_field hs.params
  obtain ⟨-, hg, -⟩ := hs.memory
  have hcell {i : Nat} (hi : i < s.params.sysT + 1) := cell_loadCoefficients s.params s.mem.sk hg hi
  refine ⟨_, exec_skLoadg s, (length_loadCoefficients ..).trans hg, ?_, fun i hi => ?_, fun ht hsk => ?_⟩
  · rw [hcell (Nat.lt_succ_self _), if_pos rfl]
  · rw [hcell (Nat.lt_succ_of_lt hi), if_neg hi.ne]
    exact toNat_coefficient s.params h13 _ i
  · rw [ht] at hg ⊢
    rw [hsk, loadCoefficients_t16 hg]

/-! ## Sums and powers of elements in the field -/

theorem elemOk_cell {g : List Elem} (hg : ∀ x ∈ g, elemOk p x) (i : Nat) : elemOk p (cell g i) := by
  obtain hmem | hzero := cell_mem_or_zero g i
  · exact hg _ hmem
  · rw [hzero]; exact elemOk_zero p

theorem elemOk_loopUp_xor {f : Nat → Elem} (hf : ∀ k, elemOk p (f k)) (n : Nat) :
    elemOk p (loopUp n (fun k r => r ^^^ f k) 0) :=
  loopUp_induct (fun _ r => elemOk p r) n (elemOk_zero p) fun k _ _ hr => elemOk_gfAdd p hr (hf k)

/-- The exclusive or of elements is their sum in the field (R103). -/
theorem toField_loopUp_xor (f : Nat → Elem) (n : Nat) :
    toField p (loopUp n (fun k r => r ^^^ f k) 0) = ∑ k ∈ Finset.range n, toField p (f k) := by
  induction n with
  | zero => exact toField_zero p
  | succ n ih => rw [loopUp_succ, Finset.sum_range_succ, ← ih]; exact toField_gfAdd p _ _

theorem toField_gfPow (h : p.wellFormed = true) {a : Elem} (ha : elemOk p a) (n : Nat) :
    toField p (gfPow p a n) = toField p a ^ n := by
  obtain ⟨h1, -⟩ := Params.wellFormed_field h
  induction n with
  | zero => exact (toField_one p).trans (pow_zero _).symm
  | succ n ih => rw [gfPow, toField_gfMul h (elemOk_gfPow p h1 a n) ha, ih, pow_succ]

/-! ## gf_eval -/

/-- One turn of Horner's rule (R144). -/
theorem toField_horner_turn (h : p.wellFormed = true) {r a c : Elem} (hr : elemOk p r) (ha : elemOk p a) :
    toField p (gfAdd (gfMul p r a) c) = toField p r * toField p a + toField p c := by
  rw [toField_gfAdd, toField_gfMul h hr ha]

/-- Horner's rule from `r` down over the last `n` coefficients: `r` is the coefficient of `a^n` (R144). -/
theorem toField_loopDown_horner (h : p.wellFormed = true) {g : List Elem} (hg : ∀ x ∈ g, elemOk p x) {a : Elem}
    (ha : elemOk p a) (n : Nat) {r : Elem} (hr : elemOk p r) :
    elemOk p (loopDown n (fun i r => gfAdd (gfMul p r a) (cell g i)) r) ∧
      toField p (loopDown n (fun i r => gfAdd (gfMul p r a) (cell g i)) r) =
        ∑ k ∈ Finset.range n, toField p (cell g k) * toField p a ^ k + toField p r * toField p a ^ n := by
  induction n generalizing r with
  | zero => exact ⟨hr, by simp⟩
  | succ n ih =>
    obtain ⟨hok, hval⟩ := ih (elemOk_gfAdd p (elemOk_gfMul p r a) (elemOk_cell hg n))
    refine ⟨hok, ?_⟩
    rw [loopDown_succ, hval, toField_horner_turn h hr ha, Finset.sum_range_succ]
    ring

theorem elemOk_gfEval (h : p.wellFormed = true) {g : List Elem} (hg : ∀ x ∈ g, elemOk p x) {a : Elem}
    (ha : elemOk p a) : elemOk p (gfEval p g a) :=
  (toField_loopDown_horner h hg ha _ (elemOk_cell hg _)).1

/-- gf_eval is the polynomial's value in the field (R144). -/
theorem toField_gfEval (h : p.wellFormed = true) {g : List Elem} (hg : ∀ x ∈ g, elemOk p x) {a : Elem}
    (ha : elemOk p a) :
    toField p (gfEval p g a) = ∑ k ∈ Finset.range (p.sysT + 1), toField p (cell g k) * toField p a ^ k := by
  rw [Finset.sum_range_succ]
  exact (toField_loopDown_horner h hg ha _ (elemOk_cell hg _)).2

/-- gf_eval is the exclusive or of any elements that are the polynomial's terms in the field. -/
theorem gfEval_eq_loopUp_xor (h : p.wellFormed = true) {g : List Elem} (hg : ∀ x ∈ g, elemOk p x) {a : Elem}
    (ha : elemOk p a) {f : Nat → Elem} (hf : ∀ k, elemOk p (f k))
    (hterm : ∀ k, toField p (f k) = toField p (cell g k) * toField p a ^ k) :
    gfEval p g a = loopUp (p.sysT + 1) (fun k r => r ^^^ f k) 0 := by
  rw [← toField_inj h (elemOk_gfEval h hg ha) (elemOk_loopUp_xor hf _), toField_gfEval h hg ha, toField_loopUp_xor]
  exact Finset.sum_congr rfl fun k _ => (hterm k).symm

/-- Settles O34: `gf_mul(G[k], a^k)` is the term of `x^k` at `a`. -/
theorem hornerEvaluatesThePolynomial : Obligations.HornerEvaluatesThePolynomial := by
  intro p g a h hg ha
  obtain ⟨h1, -⟩ := Params.wellFormed_field h
  refine gfEval_eq_loopUp_xor h hg ha (fun k => elemOk_gfMul p _ _) fun k => ?_
  rw [toField_gfMul h (elemOk_cell hg k) (elemOk_gfPow p h1 a k), toField_gfPow h ha]

/-! ## ROOT.EVAL -/

/-- At 0 only the constant term is left (R146). -/
theorem gfEval_zero (h : p.wellFormed = true) {g : List Elem} (hg : ∀ x ∈ g, elemOk p x) :
    gfEval p g 0 = cell g 0 := by
  rw [← toField_inj h (elemOk_gfEval h hg (elemOk_zero p)) (elemOk_cell hg 0), toField_gfEval h hg (elemOk_zero p),
    Finset.sum_range_succ', toField_zero]
  simp

/-- At 1 every power is 1 (R146). -/
theorem gfEval_one (h : p.wellFormed = true) {g : List Elem} (hg : ∀ x ∈ g, elemOk p x) :
    gfEval p g 1 = loopUp (p.sysT + 1) (fun k r => r ^^^ cell g k) 0 := by
  obtain ⟨h1, -⟩ := Params.wellFormed_field h
  refine gfEval_eq_loopUp_xor h hg (elemOk_one p h1) (elemOk_cell hg) fun k => ?_
  rw [toField_one, one_pow, mul_one]

/-- Settles O35: each cell of INV is its own reciprocal; gf_eval at 0 and at 1, and gf_inv of 0, are the corner cases. -/
theorem rootEvalWritesTheReciprocals : Obligations.RootEvalWritesTheReciprocals := by
  refine ⟨fun s hs => ?_, by decide⟩
  obtain ⟨-, -, -, -, hinv, -, -, hg, -⟩ := hs.memory
  refine ⟨_, exec_rootEval s, (length_reciprocals ..).trans hinv, fun i hi => ?_⟩
  have hcell := cell_reciprocals s.params s.mem.g s.mem.l hinv hi
  refine ⟨hcell, fun hzero => ?_, fun hone => ?_, fun hroot => ?_⟩
  · rw [hzero, gfEval_zero hs.params hg]
  · rw [hone, gfEval_one hs.params hg]
  · rw [hcell, hroot, gfInv_zero]

end Sys2Proof.Machine
end

section
/-! SUPPORT. The reducer (44_systematic_reducer.md R181 to R195): the masked row XOR as a conditional one, what each
pass of a pivot step leaves, the unit columns of completed pivot steps, and the matrix a failing step leaves. -/

namespace Sys2Proof.Machine

theorem div_eight_lt_rowBytes {p : Params} (h : p.wellFormed = true) {n : Nat} (hn : n < p.sysN) :
    n / 8 < p.rowBytes := by
  obtain ⟨-, h8, -⟩ := Params.wellFormed_sizes h
  simp only [Params.rowBytes]
  omega

/-- A pivot column lies within the row (R10). -/
theorem pivot_div_eight_lt_rowBytes {p : Params} (h : p.wellFormed = true) {row : Nat} (hrow : row < p.pkNrows) :
    row / 8 < p.rowBytes := by
  obtain ⟨-, -, -, hle⟩ := Params.wellFormed_sizes h
  exact div_eight_lt_rowBytes h (hrow.trans_le hle)

/-! ## The passes' steps as conditional row XORs (R182) -/

section rowXor
variable {p : Params} {mat : List Byte}

theorem pivotBit_eq_ofBool (row k : Nat) : pivotBit p mat row k = BitVec.ofBool (matBit p mat k row) := by
  cases hbit : matBit p mat k row
  · exact (pivotBit_eq_zero_iff p mat row k).2 hbit
  · exact (pivotBit_eq_one_iff p mat row k).2 hbit

/-- A step of pass 1 adds row `k` to the pivot row under the XOR of their pivot bits (R183). -/
theorem pass1Step_eq_xorRow (row k : Nat) :
    pass1Step p row k mat = xorRow p mat k row (BitVec.ofBool (matBit p mat row row ^^ matBit p mat k row)) := by
  rw [← BitVec.ofBool_xor_ofBool, ← pivotBit_eq_ofBool, ← pivotBit_eq_ofBool, pass1Step, pivotBit, pivotBit,
    BitVec.ushiftRight_xor_distrib, BitVec.setWidth_xor]

/-- A step of pass 3 adds the pivot row to row `k` under the pivot bit of row `k` (R187). -/
theorem pass3Step_eq_xorRow (row k : Nat) :
    pass3Step p row k mat = xorRow p mat row k (BitVec.ofBool (matBit p mat k row)) := by
  rw [pass3Step, pivotBit_eq_ofBool]

@[simp] theorem length_pass1Step (row k : Nat) : (pass1Step p row k mat).length = mat.length := length_xorRow ..

@[simp] theorem length_pass3Step (row k : Nat) : (pass3Step p row k mat).length = mat.length := length_xorRow ..

variable (hl : mat.length = p.pkNrows * p.rowBytes)
include hl

theorem matGet_xorRow_ofBool {y : Nat} (hy : y < p.pkNrows) (x r : Nat) {c : Nat} (hc : c < p.rowBytes) (b : Bool) :
    matGet p (xorRow p mat x y (BitVec.ofBool b)) r c =
      if r = y ∧ b = true then matGet p mat r c ^^^ matGet p mat x c else matGet p mat r c := by
  rw [matGet_xorRow p hl _ hy r hc]
  by_cases hr : r = y
  · subst hr
    cases b
    · simp
    · rw [if_pos rfl, if_pos ⟨rfl, rfl⟩, show sext8 (BitVec.ofBool true) = BitVec.allOnes 8 from sext8_one,
        BitVec.and_allOnes]
  · simp [hr]

/-- A step of pass 1 on equal pivot bits changes nothing (R184). -/
theorem pass1Step_of_eq {row k : Nat} (hrow : row < p.pkNrows) (hk : matBit p mat row row = matBit p mat k row) :
    pass1Step p row k mat = mat := by
  refine ext_matGet p ((length_pass1Step ..).trans hl) hl fun r c _ hc => ?_
  rw [pass1Step_eq_xorRow, matGet_xorRow_ofBool hl hrow k r hc]
  simp [hk]

theorem matBit_pass1Step {row : Nat} (hrow : row < p.pkNrows) (k r : Nat) {n : Nat} (hn : n / 8 < p.rowBytes) :
    matBit p (pass1Step p row k mat) r n =
      if r = row ∧ matBit p mat row row ≠ matBit p mat k row then (matBit p mat r n ^^ matBit p mat k n)
      else matBit p mat r n := by
  rw [matBit, pass1Step_eq_xorRow, matGet_xorRow_ofBool hl hrow k r hn]
  simp only [bne_iff_ne]
  split <;> simp [matBit]

theorem matGet_pass3Step {k : Nat} (hk : k < p.pkNrows) (row r : Nat) {c : Nat} (hc : c < p.rowBytes) :
    matGet p (pass3Step p row k mat) r c =
      if r = k ∧ matBit p mat k row = true then matGet p mat r c ^^^ matGet p mat row c else matGet p mat r c := by
  rw [pass3Step_eq_xorRow, matGet_xorRow_ofBool hl hk row r hc]

end rowXor

/-! ## Pass 3 (R187) -/

/-- The matrix before turn `k` of pass 3 on `mat`: the pivot row has been added to each row numbered below `k` that has
a 1 in the pivot column, the pivot row itself excepted. -/
def Pass3Before (p : Params) (row : Nat) (mat : List Byte) (k : Nat) (m : List Byte) : Prop :=
  m.length = mat.length ∧ ∀ r c, c < p.rowBytes → matGet p m r c =
    if r < k ∧ r ≠ row ∧ matBit p mat r row = true then matGet p mat r c ^^^ matGet p mat row c else matGet p mat r c

section pass3
variable {p : Params} {mat : List Byte} (h : p.wellFormed = true) (hl : mat.length = p.pkNrows * p.rowBytes)
variable {row : Nat} (hrow : row < p.pkNrows)
include h hl hrow

theorem Pass3Before.turn {k : Nat} (hk : k < p.pkNrows) {m : List Byte} (hm : Pass3Before p row mat k m) :
    Pass3Before p row mat (k + 1) (if k = row then m else pass3Step p row k m) := by
  obtain ⟨hlen, hget⟩ := hm
  by_cases hkrow : k = row
  · refine ⟨by simpa [hkrow] using hlen, fun r c hc => ?_⟩
    have hbelow : r < k + 1 ∧ r ≠ row ↔ r < k ∧ r ≠ row := by omega
    simp only [if_pos hkrow, hget r c hc, ← and_assoc, hbelow]
  · refine ⟨by simpa [hkrow] using hlen, fun r c hc => ?_⟩
    have hbit : matBit p m k row = matBit p mat k row := by
      simp [matBit, hget k _ (pivot_div_eight_lt_rowBytes h hrow)]
    rw [if_neg hkrow, matGet_pass3Step (hlen.trans hl) hk row r hc, hbit, hget r c hc, hget row c hc]
    rcases lt_trichotomy r k with hlt | rfl | hgt
    · simp [hlt, hlt.ne, Nat.lt_succ_of_lt hlt]
    · simp [hkrow]
    · simp [hgt.ne', hgt.not_gt, Nat.not_lt.2 (Nat.succ_le_of_lt hgt)]

/-- Pass 3 byte by byte: the pivot row is added to every other row with a 1 in the pivot column. -/
theorem matGet_pass3 {r c : Nat} (hr : r < p.pkNrows) (hc : c < p.rowBytes) :
    matGet p (pass3 p row mat) r c =
      if r ≠ row ∧ matBit p mat r row = true then matGet p mat r c ^^^ matGet p mat row c else matGet p mat r c := by
  have hend : Pass3Before p row mat p.pkNrows (pass3 p row mat) :=
    loopUp_induct (Pass3Before p row mat) _ ⟨rfl, by simp⟩ fun _ hk _ => Pass3Before.turn h hl hrow hk
  simpa [hr] using hend.2 r c hc

theorem matBit_pass3 {r n : Nat} (hr : r < p.pkNrows) (hn : n / 8 < p.rowBytes) : matBit p (pass3 p row mat) r n =
    if r ≠ row ∧ matBit p mat r row = true then (matBit p mat r n ^^ matBit p mat row n) else matBit p mat r n := by
  rw [matBit, matGet_pass3 h hl hrow hr hn]
  split <;> simp [matBit]

/-- Pass 3 with the pivot 1 leaves a unit pivot column. -/
theorem matBit_pass3_pivot (hpivot : matBit p mat row row = true) {r : Nat} (hr : r < p.pkNrows) :
    matBit p (pass3 p row mat) r row = decide (r = row) := by
  rw [matBit_pass3 h hl hrow hr (pivot_div_eight_lt_rowBytes h hrow)]
  by_cases hrr : r = row
  · simp [hrr, hpivot]
  · cases hbit : matBit p mat r row <;> simp [hrr, hpivot]

end pass3

/-- Settles O47: each turn of the pass touches one row, whose pivot bit no earlier turn has changed. -/
theorem pass3ClearsThePivotColumn : Obligations.Pass3ClearsThePivotColumn :=
  fun _ _ _ h hl hrow hpivot =>
    ⟨fun _ hr => matBit_pass3_pivot h hl hrow hpivot hr, fun _ _ hr hc => matGet_pass3 h hl hrow hr hc⟩

/-! ## The outcome read off STATUS (R190) -/

section outcome
variable {s t : State} (ht : exec .redRun s = .next t)
include ht

theorem reduce_of_redRun_status_zero (hstatus : t.status = 0x00000000#32) :
    reduce s.params s.mem.mat = .done t.mem.mat := by
  cases (exec_redRun s).symm.trans ht
  rcases redRun_cases s with ⟨m, hdone, hrun⟩ | ⟨m, -, hrun⟩
  · rw [hdone, hrun]; rfl
  · rw [hrun, raiseNonSystematic_status] at hstatus
    exact absurd hstatus (by decide)

/-- After a failure nothing but MAT and STATUS has changed (R195). -/
theorem reduce_of_redRun_status_allOnes (hstatus : t.status = 0xFFFFFFFF#32) :
    reduce s.params s.mem.mat = .nonSystematic t.mem.mat ∧
      t = { s with mem := { s.mem with mat := t.mem.mat }, status := 0xFFFFFFFF#32 } := by
  cases (exec_redRun s).symm.trans ht
  rcases redRun_cases s with ⟨m, -, hrun⟩ | ⟨m, hfail, hrun⟩
  · rw [hrun, setFail_status] at hstatus
    exact absurd hstatus (by decide)
  · rw [hfail, ← raiseNonSystematic_status (s.setMat m), hrun]
    exact ⟨rfl, rfl⟩

end outcome

/-! ## Unit columns (R191, R192) -/

/-- The bit columns below `n` are unit columns (R192). -/
def UnitColumns (p : Params) (mat : List Byte) (n : Nat) : Prop :=
  ∀ c r, c < n → r < p.pkNrows → matBit p mat r c = decide (r = c)

theorem unitColumns_zero (p : Params) (mat : List Byte) : UnitColumns p mat 0 :=
  fun _ _ hc => absurd hc (Nat.not_lt_zero _)

section unitColumns
variable {p : Params} {mat : List Byte} (h : p.wellFormed = true) (hl : mat.length = p.pkNrows * p.rowBytes)
variable {row : Nat} (hrow : row < p.pkNrows)
include h hl hrow

/-- A step of pass 1 adds to the pivot row a row below it, which is 0 in every earlier column. -/
theorem UnitColumns.after_pass1Step {k : Nat} (hlt : row < k) (hk : k < p.pkNrows) (hm : UnitColumns p mat row) :
    UnitColumns p (pass1Step p row k mat) row := by
  intro c r hc hr
  rw [matBit_pass1Step hl hrow k r (pivot_div_eight_lt_rowBytes h (hc.trans hrow)), hm c r hc hr, hm c k hc hk]
  simp [(hc.trans hlt).ne']

theorem UnitColumns.after_pass1 (hm : UnitColumns p mat row) : UnitColumns p (pass1 p row mat) row := by
  have hend : (pass1 p row mat).length = p.pkNrows * p.rowBytes ∧ UnitColumns p (pass1 p row mat) row :=
    loopUp_induct (fun _ m => m.length = p.pkNrows * p.rowBytes ∧ UnitColumns p m row) _ ⟨hl, hm⟩
      fun t ht m ⟨hlen, hcols⟩ =>
        ⟨(length_pass1Step ..).trans hlen, hcols.after_pass1Step h hlen hrow (by omega) (by omega)⟩
  exact hend.2

/-- Pass 3 clears its own column and adds a row that is 0 in every earlier one (R192). -/
theorem UnitColumns.after_pass3 (hpivot : matBit p mat row row = true) (hm : UnitColumns p mat row) :
    UnitColumns p (pass3 p row mat) (row + 1) := by
  intro c r hc hr
  rcases Nat.lt_succ_iff_lt_or_eq.1 hc with hlt | rfl
  · rw [matBit_pass3 h hl hrow hr (pivot_div_eight_lt_rowBytes h (hlt.trans hrow)), hm c r hlt hr, hm c row hlt hrow]
    simp [hlt.ne']
  · exact matBit_pass3_pivot h hl hrow hpivot hr

/-- A completed pivot step makes one more unit column. -/
theorem UnitColumns.after_pivotStep {m : List Byte} (hdone : pivotStep p row mat = .done m)
    (hm : UnitColumns p mat row) : UnitColumns p m (row + 1) := by
  rcases pivotStep_cases p row mat with ⟨-, hfail⟩ | ⟨hpivot, hstep⟩
  · cases hfail.symm.trans hdone
  · cases hstep.symm.trans hdone
    exact (hm.after_pass1 h hl hrow).after_pass3 h ((length_pass1 ..).trans hl) hrow ((pivotBit_eq_one_iff ..).1 hpivot)

end unitColumns

/-! ## The sequence of pivot steps (R190) -/

section reduceFrom
variable {p : Params}

theorem reduceFrom_succ_of_done {row : Nat} {mat m : List Byte} (hstep : pivotStep p row mat = .done m) (n : Nat) :
    reduceFrom p (n + 1) row mat = reduceFrom p n (row + 1) m := by
  rw [reduceFrom, hstep]

theorem reduceFrom_succ_of_nonSystematic {row : Nat} {mat m : List Byte}
    (hstep : pivotStep p row mat = .nonSystematic m) (n : Nat) : reduceFrom p (n + 1) row mat = .nonSystematic m := by
  rw [reduceFrom, hstep]

/-- A completed pivot step keeps the size of the matrix. -/
theorem length_of_pivotStep_eq_done {row : Nat} {mat m : List Byte} (hstep : pivotStep p row mat = .done m) :
    m.length = mat.length := by
  simpa [hstep, PivotResult.mat] using length_pivotStep p row mat

end reduceFrom

/-- The loop invariant of R192: `n` completed pivot steps from `row` on make `n` more unit columns. -/
theorem UnitColumns.after_reduceFrom {p : Params} (h : p.wellFormed = true) {n row : Nat} {mat m : List Byte}
    (hl : mat.length = p.pkNrows * p.rowBytes) (hn : row + n ≤ p.pkNrows) (hdone : reduceFrom p n row mat = .done m)
    (hm : UnitColumns p mat row) : UnitColumns p m (row + n) := by
  induction n generalizing row mat with
  | zero => cases hdone; exact hm
  | succ n ih =>
    cases hstep : pivotStep p row mat with
    | nonSystematic m' => rw [reduceFrom_succ_of_nonSystematic hstep] at hdone; cases hdone
    | done m' =>
      rw [reduceFrom_succ_of_done hstep] at hdone
      rw [← Nat.succ_add_eq_add_succ]
      exact ih ((length_of_pivotStep_eq_done hstep).trans hl) (by omega) hdone
        (hm.after_pivotStep h hl (by omega) hstep)

/-! ## Systematic form (R191) -/

theorem getLsbD_matGet (p : Params) (mat : List Byte) (r c : Nat) {i : Nat} (hi : i < 8) :
    (matGet p mat r c).getLsbD i = matBit p mat r (8 * c + i) := by
  rw [matBit, Nat.mul_add_div (by decide), Nat.div_eq_of_lt hi, Nat.mul_add_mod, Nat.mod_eq_of_lt hi, Nat.add_zero]

/-- The bytes of row `r` of the identity (R191), bit by bit. -/
theorem getLsbD_identityByte (r c : Nat) {i : Nat} (hi : i < 8) :
    (if c = r / 8 then 1#8 <<< (r % 8) else 0x00#8).getLsbD i = decide (r = 8 * c + i) := by
  by_cases hc : c = r / 8
  · rw [if_pos hc, BitVec.getLsbD_shiftLeft, BitVec.getLsbD_one, Bool.eq_iff_iff]
    simp only [Bool.and_eq_true, Bool.not_eq_true', decide_eq_true_eq, decide_eq_false_iff_not]
    omega
  · rw [if_neg hc, BitVec.getLsbD_zero]
    exact (decide_eq_false (by omega)).symm

theorem UnitColumns.systematic {p : Params} {mat : List Byte} (hm : UnitColumns p mat p.pkNrows) :
    systematic p mat := by
  refine fun r c hr hc => BitVec.eq_of_getLsbD_eq fun i hi => ?_
  rw [getLsbD_matGet p mat r c hi, hm _ r (by omega) hr, getLsbD_identityByte r c hi]

/-- Settles O49: a reduction with STATUS 0 completed every pivot step, so every leading column is a unit column. -/
theorem successLeavesSystematicForm : Obligations.SuccessLeavesSystematicForm := by
  intro s t hs ht hstatus
  obtain ⟨-, -, -, -, -, hmat, -⟩ := hs.memory
  have hcols := (unitColumns_zero s.params s.mem.mat).after_reduceFrom hs.params hmat (Nat.zero_add _).le
    (reduce_of_redRun_status_zero ht hstatus)
  rw [Nat.zero_add] at hcols
  exact hcols.systematic

/-! ## The failing pivot step (R186, R195) -/

/-- The matrix before turn `t` of pass 1 on `mat`: as long as the pivot bit is 0, the pivot rows seen so far had a 0 in
the pivot column and nothing has been added. -/
def Pass1Before (p : Params) (row : Nat) (mat : List Byte) (t : Nat) (m : List Byte) : Prop :=
  m.length = mat.length ∧ (matBit p m row row = false →
    m = mat ∧ ∀ k, row ≤ k → k < row + 1 + t → matBit p mat k row = false)

section failing
variable {p : Params} {mat : List Byte} (h : p.wellFormed = true) (hl : mat.length = p.pkNrows * p.rowBytes)
variable {row : Nat} (hrow : row < p.pkNrows)
include h hl hrow

theorem Pass1Before.turn {t : Nat} {m : List Byte} (hm : Pass1Before p row mat t m) :
    Pass1Before p row mat (t + 1) (pass1Step p row (row + 1 + t) m) := by
  obtain ⟨hlen, hzero⟩ := hm
  refine ⟨(length_pass1Step ..).trans hlen, fun hafter => ?_⟩
  by_cases heq : matBit p m row row = matBit p m (row + 1 + t) row
  · rw [pass1Step_of_eq (hlen.trans hl) hrow heq] at hafter ⊢
    obtain ⟨rfl, hcol⟩ := hzero hafter
    refine ⟨rfl, fun k hk hkt => ?_⟩
    rcases Nat.lt_succ_iff_lt_or_eq.1 hkt with hlt | rfl
    · exact hcol k hk hlt
    · exact heq.symm.trans hafter
  · rw [matBit_pass1Step (hlen.trans hl) hrow _ _ (pivot_div_eight_lt_rowBytes h hrow), if_pos ⟨rfl, heq⟩] at hafter
    exact absurd (by simpa using hafter) heq

/-- A pivot bit still 0 after pass 1: the column is 0 from the pivot row down, and pass 1 added nothing (R186, R195). -/
theorem pass1_of_pivot_eq_false (hbit : matBit p (pass1 p row mat) row row = false) :
    pass1 p row mat = mat ∧ ∀ k, row ≤ k → k < p.pkNrows → matBit p mat k row = false := by
  have hstart : Pass1Before p row mat 0 mat := by
    refine ⟨rfl, fun hzero => ⟨rfl, fun k hk hlt => ?_⟩⟩
    rwa [Nat.le_antisymm (Nat.le_of_lt_succ hlt) hk]
  have hend : Pass1Before p row mat (p.pkNrows - (row + 1)) (pass1 p row mat) :=
    loopUp_induct (Pass1Before p row mat) _ hstart fun _ _ _ => Pass1Before.turn h hl hrow
  obtain ⟨hmat, hcol⟩ := hend.2 hbit
  exact ⟨hmat, fun k hk hlt => hcol k hk (by omega)⟩

theorem pivotStep_of_nonSystematic {m : List Byte} (hstep : pivotStep p row mat = .nonSystematic m) :
    m = mat ∧ ∀ k, row ≤ k → k < p.pkNrows → matBit p mat k row = false := by
  rcases pivotStep_cases p row mat with ⟨hpivot, hfail⟩ | ⟨-, hdone⟩
  · cases hfail.symm.trans hstep
    exact pass1_of_pivot_eq_false h hl hrow ((pivotBit_eq_zero_iff ..).1 hpivot)
  · cases hdone.symm.trans hstep

end failing

/-- A failing reduction ends with the matrix of its completed pivot steps, in which the failing row's column is 0 from
that row down. -/
theorem reduceFrom_of_nonSystematic {p : Params} (h : p.wellFormed = true) {n row : Nat} {mat m : List Byte}
    (hl : mat.length = p.pkNrows * p.rowBytes) (hn : row + n ≤ p.pkNrows)
    (hfail : reduceFrom p n row mat = .nonSystematic m) : ∃ f, f < n ∧ reduceFrom p f row mat = .done m ∧
      ∀ k, row + f ≤ k → k < p.pkNrows → matBit p m k (row + f) = false := by
  induction n generalizing row mat with
  | zero => cases hfail
  | succ n ih =>
    cases hstep : pivotStep p row mat with
    | nonSystematic m' =>
      rw [reduceFrom_succ_of_nonSystematic hstep] at hfail
      cases hfail
      obtain ⟨rfl, hcol⟩ := pivotStep_of_nonSystematic h hl (by omega) hstep
      exact ⟨0, Nat.succ_pos n, rfl, hcol⟩
    | done m' =>
      rw [reduceFrom_succ_of_done hstep] at hfail
      obtain ⟨f, hf, hdone, hcol⟩ := ih ((length_of_pivotStep_eq_done hstep).trans hl) (by omega) hfail
      rw [Nat.succ_add_eq_add_succ] at hcol
      exact ⟨f + 1, Nat.succ_lt_succ hf, (reduceFrom_succ_of_done hstep f).trans hdone, hcol⟩

/-- Settles O51: STATUS -1 means a pivot step failed; it added nothing to the matrix of the steps before it. -/
theorem failureLeavesTheLastCompletedStep : Obligations.FailureLeavesTheLastCompletedStep := by
  intro s t hs ht hstatus
  obtain ⟨-, -, -, -, -, hmat, -⟩ := hs.memory
  obtain ⟨hfail, hframe⟩ := reduce_of_redRun_status_allOnes ht hstatus
  obtain ⟨f, hf, hdone, hcol⟩ := reduceFrom_of_nonSystematic hs.params hmat (Nat.zero_add _).le hfail
  rw [Nat.zero_add] at hcol
  exact ⟨⟨f, hf, hdone, hcol⟩, hframe⟩

end Sys2Proof.Machine
end

section
/-! SUPPORT. The serializer and the whole key generation (45_serializer_and_keygen.md R211 to R216): what pins down the
buffer PK.SER leaves, that each stage of PK.GEN keeps the invariant, and the two ends of its reduction. -/

namespace Sys2Proof.Machine

/-! ## PK.SER -/

/-- Two buffers of `rows` rows of `stride` cells with the same cells, row by row, are the same buffer. -/
theorem ext_rowMajor {w rows stride : Nat} {a b : List (BitVec w)} (ha : a.length = rows * stride)
    (hb : b.length = rows * stride)
    (h : ∀ r c, r < rows → c < stride → cell a (r * stride + c) = cell b (r * stride + c)) : a = b := by
  refine ext_cell (ha.trans hb.symm) fun i hi => ?_
  rw [ha] at hi
  have hstride : 0 < stride := Nat.pos_of_mul_pos_left (Nat.zero_lt_of_lt hi)
  have hcell := h (i / stride) (i % stride) (Nat.div_lt_of_lt_mul (Nat.mul_comm rows stride ▸ hi))
    (Nat.mod_lt i hstride)
  rwa [Nat.div_add_mod'] at hcell

/-- PK.SER leaves the one buffer of PK_BYTES that holds the right part of MAT: nothing of the old PK survives (R211). -/
theorem serialize_eq {p : Params} {mat pk key : List Byte} (hpk : pk.length = p.pkBytes) (hkey : key.length = p.pkBytes)
    (h : ∀ row c, row < p.pkNrows → c < p.pkRowBytes →
      cell key (row * p.pkRowBytes + c) = matGet p mat row (p.pkNrows / 8 + c)) : serialize p mat pk = key :=
  ext_rowMajor ((length_serialize ..).trans hpk) hkey fun row c hrow hc =>
    (cell_serialize p mat hpk hrow hc).trans (h row c hrow hc).symm

/-- A second PK.SER writes what is already there (R212). -/
theorem serialize_serialize {p : Params} {pk : List Byte} (hpk : pk.length = p.pkBytes) (mat : List Byte) :
    serialize p mat (serialize p mat pk) = serialize p mat pk :=
  have hlen := (length_serialize p mat pk).trans hpk
  serialize_eq hlen hlen fun _ _ => cell_serialize p mat hpk

/-- With PK_NROWS = SYS_N the rows of PK are empty, so PK.SER writes nothing (R212). -/
theorem serialize_of_pkNrows_eq_sysN {p : Params} (hsquare : p.pkNrows = p.sysN) {pk : List Byte}
    (hpk : pk.length = p.pkBytes) (mat : List Byte) : serialize p mat pk = pk := by
  have hempty : p.pkRowBytes = 0 := by simp [Params.pkRowBytes, hsquare]
  exact serialize_eq hpk hpk fun _ c _ hc => absurd (hempty ▸ hc) (Nat.not_lt_zero c)

theorem exec_pkSer_eq (s : State) :
    exec .pkSer s = .next { s with mem := { s.mem with pk := serialize s.params s.mem.mat s.mem.pk } } := rfl

/-- Settles O54: PK's new value is fixed by its size and the bytes it holds, whatever PK held before. -/
theorem pkSerCopiesTheRightPart : Obligations.PkSerCopiesTheRightPart := by
  intro s hs
  obtain ⟨-, -, -, -, -, -, hpk, -⟩ := hs.memory
  refine ⟨_, exec_pkSer_eq s, (length_serialize ..).trans hpk, fun _ _ => cell_serialize _ _ hpk, ?_, fun hsquare => ?_⟩
  · rw [exec_pkSer_eq, serialize_serialize hpk]
  · rw [exec_pkSer_eq, serialize_of_pkNrows_eq_sysN hsquare hpk]

/-! ## The stages of PK.GEN keep the invariant (R214) -/

section stages
variable {s : State} (hs : s.Inv)
include hs

theorem skLoadg_inv : (skLoadg s).Inv :=
  have ⟨h1, _⟩ := Params.wellFormed_field hs.params
  ⟨hs.params, loadCoefficients_wf h1 hs.memory, hs.fr, hs.status⟩

theorem supGen_inv : (supGen s).Inv :=
  have ⟨_, h13, _⟩ := Params.wellFormed_field hs.params
  ⟨hs.params, supportFill_wf h13 hs.memory _ _, hs.fr, hs.status⟩

theorem rootEval_inv : (rootEval s).Inv :=
  have ⟨h1, _⟩ := Params.wellFormed_field hs.params
  ⟨hs.params, reciprocals_wf h1 hs.memory _ _, hs.fr, hs.status⟩

theorem matBuild_inv : (matBuild s).Inv :=
  ⟨hs.params, buildLayers_wf hs.memory _ _, hs.fr, hs.status⟩

end stages

/-! ## The reduced state (R216) -/

/-- RED.RUN writes no buffer but MAT, in either outcome (44_systematic_reducer.md R190). -/
@[simp] theorem redRun_mem (s : State) : (redRun s).mem = { s.mem with mat := (reduce s.params s.mem.mat).mat } := by
  rcases redRun_cases s with ⟨m, hm, hrun⟩ | ⟨m, hm, hrun⟩
  · rw [hrun, hm]; rfl
  · rw [hrun, hm]; rfl

@[simp] theorem redRun_params (s : State) : (redRun s).params = s.params := by
  rcases redRun_cases s with ⟨m, -, hrun⟩ | ⟨m, -, hrun⟩
  · rw [hrun]; rfl
  · rw [hrun]; rfl

/-- STATUS after RED.RUN shows its FAIL (10_state.md R31). -/
theorem redRun_status (s : State) : (redRun s).status = sext32 (redRun s).fail := by
  rcases redRun_cases s with ⟨m, -, hrun⟩ | ⟨m, -, hrun⟩
  · rw [hrun, setFail_status, setFail_fail]
  · rw [hrun, raiseNonSystematic_status, raiseNonSystematic_fail, sext32_true]

@[simp] theorem pkGenReduced_params (s : State) : (pkGenReduced s).params = s.params := redRun_params _

/-- No stage before PK.SER writes PK (R214). -/
@[simp] theorem pkGenReduced_pk (s : State) : (pkGenReduced s).mem.pk = s.mem.pk := by
  rw [pkGenReduced, redRun_mem]; rfl

theorem pkGenReduced_status (s : State) : (pkGenReduced s).status = sext32 (pkGenReduced s).fail := redRun_status _

/-- The built matrix is one of the invariant, so a reduction of it with FAIL 0 left it systematic (R191). -/
theorem systematic_pkGenReduced {s : State} (hs : s.Inv) (hfail : (pkGenReduced s).fail = false) :
    systematic s.params (pkGenReduced s).mem.mat := by
  have hbuilt := matBuild_inv (rootEval_inv (supGen_inv (skLoadg_inv hs)))
  have hstatus : (pkGenReduced s).status = 0x00000000#32 := by rw [pkGenReduced_status, hfail, sext32_false]
  exact successLeavesSystematicForm (matBuild (rootEval (supGen (skLoadg s)))) (pkGenReduced s) hbuilt (exec_redRun _)
    hstatus

/-- Settles O57: the reduction has set FAIL, which decides between a serialized systematic matrix and an untouched PK. -/
theorem pkGenHasTwoOutcomes : Obligations.PkGenHasTwoOutcomes := by
  intro s hs
  obtain ⟨-, -, -, -, -, -, hpk, -⟩ := hs.memory
  refine ⟨pkGen s, rfl, ?_⟩
  rcases pkGen_cases s with ⟨hfail, hgen⟩ | ⟨hfail, hgen⟩
  · left
    rw [hgen, pkSer, setPk_status, setPk_mem, pkGenReduced_status, pkGenReduced_params, pkGenReduced_pk, hfail]
    exact ⟨sext32_false, systematic_pkGenReduced hs hfail, fun _ _ => cell_serialize s.params _ hpk⟩
  · right
    rw [hgen, pkGenReduced_status, pkGenReduced_pk, hfail]
    exact ⟨sext32_true, rfl⟩

end Sys2Proof.Machine
end

section
/-! SUPPORT. Raising NonSystematic (60_exceptions.md R236): the one register it writes, the pivot step that raises it, and
the key generation that ends there. -/

namespace Sys2Proof.Machine

theorem raiseNonSystematic_eq (s : State) : raiseNonSystematic s = { s with status := 0xFFFFFFFF#32 } := by
  rw [raiseNonSystematic, State.setFail, sext32_true]

theorem fail_eq_true_of_status {s : State} (h : s.status = 0xFFFFFFFF#32) : s.fail = true := by
  simp [State.fail, h]

/-! ## The pivot step that raises it (44_systematic_reducer.md R186) -/

section zeroColumn
variable {p : Params} {mat : List Byte} (hl : mat.length = p.pkNrows * p.rowBytes) {row : Nat} (hrow : row < p.pkNrows)
  (hcol : ∀ k, row ≤ k → k < p.pkNrows → matBit p mat k row = false)
include hl hrow hcol

/-- On a column that is 0 from the pivot row down, each turn of pass 1 compares equal pivot bits and adds nothing. -/
theorem pass1_of_zero_column : pass1 p row mat = mat := by
  refine loopUp_induct (fun _ m => m = mat) _ rfl fun t ht m hm => ?_
  have hbits : matBit p mat row row = matBit p mat (row + 1 + t) row :=
    (hcol row le_rfl hrow).trans (hcol (row + 1 + t) (by omega) (by omega)).symm
  rw [hm]
  exact pass1Step_of_eq hl hrow hbits

theorem pivotStep_of_zero_column : pivotStep p row mat = .nonSystematic mat := by
  have hpivot : pivotBit p mat row row = 0 := (pivotBit_eq_zero_iff ..).2 (hcol row le_rfl hrow)
  simp only [pivotStep, pass1_of_zero_column hl hrow hcol, hpivot, if_true]

end zeroColumn

/-- A RED.RUN with STATUS -1 raised NonSystematic at a pivot step, on the matrix of the completed steps before it. -/
theorem redRun_raises_at_pivotStep {s t : State} (hs : s.Inv) (ht : exec .redRun s = .next t)
    (hstatus : t.status = 0xFFFFFFFF#32) :
    ∃ f m, f < s.params.pkNrows ∧ reduceFrom s.params f 0 s.mem.mat = .done m ∧
      pivotStep s.params f m = .nonSystematic m ∧ t = raiseNonSystematic { s with mem := { s.mem with mat := m } } := by
  obtain ⟨-, -, -, -, -, hmat, -⟩ := hs.memory
  obtain ⟨⟨f, hf, hdone, hcol⟩, hframe⟩ := failureLeavesTheLastCompletedStep s t hs ht hstatus
  have hlen : t.mem.mat.length = s.mem.mat.length := by
    simpa [hdone, PivotResult.mat] using length_reduceFrom s.params f 0 s.mem.mat
  refine ⟨f, t.mem.mat, hf, hdone, pivotStep_of_zero_column (hlen.trans hmat) hf hcol, ?_⟩
  rw [raiseNonSystematic_eq]
  exact hframe

/-! ## The key generation that ends there (45_serializer_and_keygen.md R215) -/

/-- A PK.GEN with FAIL 1 left out PK.SER: it ends with the state of its RED.RUN stage. -/
theorem pkGen_of_fail {s : State} (h : (pkGen s).fail = true) : pkGen s = pkGenReduced s := by
  rcases pkGen_cases s with ⟨hfail, -⟩ | ⟨-, hgen⟩
  · rw [pkGen_fail, hfail] at h
    cases h
  · exact hgen

/-- Settles O60: raising it writes STATUS by definition; a reduction fails at a zero column, where the step adds nothing;
and a key generation that fails keeps the state of its reduction, which never writes PK. -/
theorem raisingNonSystematicOnlyWritesStatus : Obligations.RaisingNonSystematicOnlyWritesStatus := by
  refine ⟨raiseNonSystematic_eq, fun s t => redRun_raises_at_pivotStep, ?_⟩
  rintro s t mid ht hstatus rfl
  cases (exec_pkGen s).symm.trans ht
  rw [pkGen_of_fail (fail_eq_true_of_status hstatus)]
  exact ⟨exec_redRun _, pkGenReduced_pk s⟩

end Sys2Proof.Machine
end

section
/-! SUPPORT. Termination (70_reset_and_hazards.md R271): the next state each command answers. -/

namespace Sys2Proof.Machine

/-- Settles O11: command by command, the next state is the one its own law names, with no premise on the state; a
reduction that fails answers one too (R237). -/
theorem everyCommandTerminates : Obligations.EveryCommandTerminates := by
  intro i s
  cases i with
  | gfMul a b => exact ⟨_, exec_gfMul s a b⟩
  | gfInv a => exact ⟨_, exec_gfInv s a⟩
  | gfBitrev a => exact ⟨_, exec_gfBitrev s a⟩
  | skLoadg => exact ⟨_, exec_skLoadg s⟩
  | supGen => exact ⟨_, exec_supGen s⟩
  | rootEval => exact ⟨_, exec_rootEval s⟩
  | matBuild => exact ⟨_, exec_matBuild s⟩
  | redRun => exact ⟨_, exec_redRun s⟩
  | pkSer => exact ⟨_, exec_pkSer s⟩
  | pkGen => exact ⟨_, exec_pkGen s⟩

end Sys2Proof.Machine
end

section
/-! SUPPORT. The encoder against the decoder (30_encoding.md R81 to R87): a word is its four fields, the words in a row
of the opcode map are those of the row's commands, and an assembler line is that of the command it stands for. -/

namespace Sys2Proof

/-! ## The fields of a word (R81) -/

/-- A word is OP, the two bits below it, B and A, side by side. -/
theorem append_fields (w : Word) : fieldOp w ++ w.extractLsb' 26 2 ++ fieldB w ++ fieldA w = w := by
  rw [fieldOp, fieldB, fieldA,
    BitVec.extractLsb'_append_extractLsb'_eq_extractLsb' (show 28 = 26 + 2 from rfl),
    BitVec.extractLsb'_append_extractLsb'_eq_extractLsb' (show 26 = 13 + 13 from rfl),
    BitVec.extractLsb'_append_extractLsb'_eq_extractLsb' (show 13 = 0 + 13 from rfl)]
  exact BitVec.extractLsb'_eq_self

@[simp] theorem fieldA_formatF2 (op : BitVec 4) (b a : BitVec 13) : fieldA (formatF2 op b a) = a :=
  BitVec.extractLsb'_append_eq_right

@[simp] theorem fieldB_formatF2 (op : BitVec 4) (b a : BitVec 13) : fieldB (formatF2 op b a) = b := by
  rw [fieldB, formatF2, BitVec.extractLsb'_append_eq_of_le (by decide)]
  exact BitVec.extractLsb'_append_eq_right

@[simp] theorem fieldA_formatF1 (op : BitVec 4) (a : BitVec 13) : fieldA (formatF1 op a) = a :=
  BitVec.extractLsb'_append_eq_right

/-! ## The opcode map and the decoder (R83, R84) -/

@[simp] theorem Opcode.ofCode_code (o : Opcode) : Opcode.ofCode o.code = some o := by cases o <;> rfl

theorem Opcode.code_injective : Function.Injective Opcode.code :=
  Function.LeftInverse.injective (g := fun c => (Opcode.ofCode c).getD .gfMul) fun o => by simp

/-- A word in a row of the opcode map is that row's command (R84). -/
theorem decode_of_row {o : Opcode} {w : Word} (hrow : w &&& o.maskBits = o.matchBits) :
    decode w = .ok (o.instr (fieldA w) (fieldB w)) := by
  have hop : fieldOp w = o.code := Opcode.op_eq_code_of_row hrow
  simp only [decode, hop, Opcode.ofCode_code, if_pos hrow]

/-- The word of a command lies in its row of the opcode map (R83). -/
theorem encode_row (i : Instr) : encode i &&& i.opcode.maskBits = i.opcode.matchBits := by
  cases i with
  | gfMul a b => exact (Laws.OpcodeRow.gfMul a b).1
  | gfInv a => exact (Laws.OpcodeRow.gfInv a).1
  | gfBitrev a => exact (Laws.OpcodeRow.gfBitrev a).1
  | _ => decide

/-- The operand fields of a command's word are its operands (R82). -/
theorem instr_fields_encode (i : Instr) : i.opcode.instr (fieldA (encode i)) (fieldB (encode i)) = i := by
  cases i with
  | gfMul a b => simp [Instr.opcode, Opcode.instr, encode]
  | gfInv a => simp [Instr.opcode, Opcode.instr, encode]
  | gfBitrev a => simp [Instr.opcode, Opcode.instr, encode]
  | _ => rfl

/-- Settles O1: a command's word lies in its own row, and the row reads the operands back from their fields. -/
theorem decodeOfEncodeIsTheCommand : Obligations.DecodeOfEncodeIsTheCommand := fun i => by
  rw [decode_of_row (encode_row i), instr_fields_encode]

/-! ## The fields a row requires to be zero (R81) -/

namespace Opcode

/-- Every row requires zeros in the two bits below OP. -/
theorem mask_match_reserved (o : Opcode) :
    o.maskBits.extractLsb' 26 2 = BitVec.allOnes 2 ∧ o.matchBits.extractLsb' 26 2 = 0#2 := by
  cases o <;> decide

/-- The rows of the operations without a second operand require B to be zero. -/
theorem mask_match_B (o : Opcode) (hone : o.arity ≤ 1) :
    o.maskBits.extractLsb' 13 13 = BitVec.allOnes 13 ∧ o.matchBits.extractLsb' 13 13 = 0#13 := by
  revert hone; cases o <;> decide

/-- The rows of the operations without operands require A to be zero. -/
theorem mask_match_A (o : Opcode) (hnone : o.arity = 0) :
    o.maskBits.extractLsb' 0 13 = BitVec.allOnes 13 ∧ o.matchBits.extractLsb' 0 13 = 0#13 := by
  revert hnone; cases o <;> decide

/-- The word of a command of the operation, with the fields its format lacks zero. -/
theorem encode_instr (o : Opcode) (a b : BitVec 13) : encode (o.instr a b) =
    o.code ++ 0#2 ++ (if o.arity ≤ 1 then 0#13 else b) ++ (if o.arity = 0 then 0#13 else a) := by
  cases o <;> rfl

/-- A word in a row is the word of the row's command with the operands read from it. -/
theorem encode_instr_of_row {o : Opcode} {w : Word} (hrow : w &&& o.maskBits = o.matchBits) :
    encode (o.instr (fieldA w) (fieldB w)) = w := by
  have hreserved : w.extractLsb' 26 2 = 0#2 := field_eq_zero_of_row hrow o.mask_match_reserved
  have hB : (if o.arity ≤ 1 then 0#13 else fieldB w) = fieldB w :=
    ite_eq_right_iff.2 fun hone => (field_eq_zero_of_row hrow (o.mask_match_B hone)).symm
  have hA : (if o.arity = 0 then 0#13 else fieldA w) = fieldA w :=
    ite_eq_right_iff.2 fun hnone => (field_eq_zero_of_row hrow (o.mask_match_A hnone)).symm
  calc encode (o.instr (fieldA w) (fieldB w))
      = fieldOp w ++ w.extractLsb' 26 2 ++ fieldB w ++ fieldA w := by
        rw [encode_instr, hB, hA, hreserved, fieldOp, op_eq_code_of_row hrow]
    _ = w := append_fields w

end Opcode

/-- Settles O2: a word that decodes lies in a row, whose mask leaves free only the fields the command keeps. -/
theorem encodeOfDecodeIsTheWord : Obligations.EncodeOfDecodeIsTheWord := by
  intro w i hdec
  obtain ⟨o, hrow, rfl⟩ := row_of_decode_eq_ok hdec
  exact Opcode.encode_instr_of_row hrow

/-- Settles O3: a row fixes OP, so a word lies in one row at most, and a word that decodes lies in one. -/
theorem decodingFollowsMaskAndMatch : Obligations.DecodingFollowsMaskAndMatch := by
  refine ⟨fun o w => decode_of_row, fun w hnone => ?_, fun o o' w hrow hrow' => ?_⟩
  · cases hdec : decode w with
    | error e => exact ⟨e, rfl⟩
    | ok i =>
      obtain ⟨o, hrow, -⟩ := row_of_decode_eq_ok hdec
      exact absurd hrow (hnone o)
  · exact Opcode.code_injective ((Opcode.op_eq_code_of_row hrow).symm.trans (Opcode.op_eq_code_of_row hrow'))

/-- Settles O5: the ten words are the words of the ten commands. -/
theorem wordsOfTheOpcodeMapDecode : Obligations.WordsOfTheOpcodeMapDecode :=
  ⟨decodeOfEncodeIsTheCommand (.gfMul 0x1234 0x0ABC), decodeOfEncodeIsTheCommand (.gfInv 0x1FFF),
    decodeOfEncodeIsTheCommand (.gfBitrev 0x1234), decodeOfEncodeIsTheCommand .skLoadg,
    decodeOfEncodeIsTheCommand .supGen, decodeOfEncodeIsTheCommand .rootEval, decodeOfEncodeIsTheCommand .matBuild,
    decodeOfEncodeIsTheCommand .redRun, decodeOfEncodeIsTheCommand .pkSer, decodeOfEncodeIsTheCommand .pkGen⟩

/-! ## Assembler lines (R87) -/

@[simp] theorem Opcode.ofMnemonic_mnemonic (o : Opcode) : Opcode.ofMnemonic o.mnemonic = some o := by
  cases o <;> decide

theorem Opcode.mnemonic_of_ofMnemonic {m : String} {o : Opcode} (h : Opcode.ofMnemonic m = some o) :
    o.mnemonic = m := by
  simpa using List.find?_some h

/-- A 13-bit operand is in the range R87 allows. -/
theorem operandFits_toNat (a : BitVec 13) : operandFits a.toNat = true :=
  decide_eq_true (Nat.le_of_lt_succ a.isLt)

theorem toNat_ofNat_of_operandFits {n : Nat} (h : operandFits n = true) : (BitVec.ofNat 13 n).toNat = n := by
  have hlt : n < 2 ^ 13 := Nat.lt_succ_of_le (of_decide_eq_true h)
  rw [BitVec.toNat_ofNat, Nat.mod_eq_of_lt hlt]

@[simp] theorem operands_length (i : Instr) : i.operands.length = i.opcode.arity := by cases i <;> rfl

theorem operands_fit (i : Instr) : i.operands.all operandFits = true := by
  cases i <;> simp [Instr.operands, operandFits_toNat]

theorem asmLine_wellFormed (i : Instr) : i.asmLine.wellFormed = true := by
  simp [AsmLine.wellFormed, Instr.asmLine, operands_fit]

theorem assemble_asmLine (i : Instr) : i.asmLine.assemble = some i := by
  rw [AsmLine.assemble, if_pos (asmLine_wellFormed i), Instr.asmLine, Opcode.ofMnemonic_mnemonic]
  cases i <;> simp [Instr.opcode, Instr.operands]

/-- Everything a line that assembles says: its operands fit, its mnemonic names the command's operation, and the
command's operands are the line's as 13-bit numbers. -/
theorem line_of_assemble {x : AsmLine} {i : Instr} (h : x.assemble = some i) :
    (∀ n ∈ x.operands, operandFits n = true) ∧ Opcode.ofMnemonic x.mnemonic = some i.opcode ∧
      i.operands = x.operands.map fun n => (BitVec.ofNat 13 n).toNat := by
  rw [AsmLine.assemble] at h
  split at h
  · next hwf =>
    constructor
    · rw [AsmLine.wellFormed] at hwf
      split at hwf
      · cases hwf
      · exact List.all_eq_true.1 (Bool.and_eq_true_iff.1 hwf).2
    · split at h <;> cases h
      all_goals next hm hops => exact ⟨hm, by rw [hops]; rfl⟩
  · cases h

theorem eq_asmLine_of_assemble {x : AsmLine} {i : Instr} (h : x.assemble = some i) : x = i.asmLine := by
  obtain ⟨hfit, hm, hops⟩ := line_of_assemble h
  rw [List.map_congr_left fun n hn => toNat_ofNat_of_operandFits (hfit n hn), List.map_id'] at hops
  rw [Instr.asmLine, Opcode.mnemonic_of_ofMnemonic hm, hops]

/-- Settles O6: mnemonics are distinct and every 13-bit operand fits, so a command's line names it and no other. -/
theorem assemblerLinesStandForOneCommand : Obligations.AssemblerLinesStandForOneCommand := by
  refine ⟨assemble_asmLine, fun x i => eq_asmLine_of_assemble, fun x ⟨n, hn, hlarge⟩ => ?_⟩
  cases hasm : x.assemble with
  | none => rfl
  | some i => exact absurd (of_decide_eq_true ((line_of_assemble hasm).1 n hn)) (Nat.not_le.2 hlarge)

end Sys2Proof
end

section
/-! SUPPORT. Commands and steps as a whole (10_state.md R33, R41, 70_reset_and_hazards.md R273): RED.RUN and PK.GEN as
record updates, the buffers each stage leaves, everything an item of the run can do, and what follows along a run. -/

namespace Sys2Proof.Machine

/-! ## RED.RUN as a record update (44_systematic_reducer.md R190) -/

theorem redRun_eq (s : State) : redRun s =
    { s with mem := { s.mem with mat := (reduce s.params s.mem.mat).mat },
             status := sext32 (!(reduce s.params s.mem.mat).ok) } := by
  rcases redRun_cases s with ⟨m, hm, hrun⟩ | ⟨m, hm, hrun⟩
  · rw [hrun, hm]; rfl
  · rw [hrun, hm]; rfl

/-- Settles O44: a reduction is done or not, and STATUS shows which. -/
theorem redRunEndsInOneOfTwoWays : Obligations.RedRunEndsInOneOfTwoWays := by
  intro s
  rcases redRun_cases s with ⟨m, hm, -⟩ | ⟨m, hm, -⟩
  · exact .inl ⟨m, hm, by rw [exec_redRun, redRun_eq, hm, ← sext32_false]; rfl⟩
  · exact .inr ⟨m, hm, by rw [exec_redRun, redRun_eq, hm, ← sext32_true]; rfl⟩

/-! ## The host's state under a command (10_state.md R41) -/

/-- `t` has the parameter set and the host's state of `s`. -/
def SameHost (t s : State) : Prop :=
  t.params = s.params ∧ t.pending = s.pending ∧ t.index = s.index ∧ t.replies = s.replies ∧ t.draws = s.draws

theorem redRun_sameHost (s : State) : SameHost (redRun s) s := by rw [redRun_eq]; exact ⟨rfl, rfl, rfl, rfl, rfl⟩

theorem pkGenReduced_sameHost (s : State) : SameHost (pkGenReduced s) s :=
  redRun_sameHost (matBuild (rootEval (supGen (skLoadg s))))

theorem pkGen_sameHost (s : State) : SameHost (pkGen s) s := by
  rcases pkGen_cases s with ⟨-, hgen⟩ | ⟨-, hgen⟩
  · rw [hgen]; exact pkGenReduced_sameHost s
  · rw [hgen]; exact pkGenReduced_sameHost s

theorem sameHost_of_exec {i : Instr} {s t : State} (h : exec i s = .next t) : SameHost t s := by
  cases i with
  | redRun => cases h; exact redRun_sameHost s
  | pkGen => cases h; exact pkGen_sameHost s
  | _ => cases h; exact ⟨rfl, rfl, rfl, rfl, rfl⟩

/-! ## The buffers and registers a command leaves (10_state.md R41) -/

section same
variable (m : Memory) {sp : Space}

theorem Memory.same_refl : Memory.same sp m m := by cases sp <;> rfl

theorem Memory.same.symm {m m' : Memory} (h : Memory.same sp m m') : Memory.same sp m' m := by
  cases sp <;> exact Eq.symm h

theorem Memory.same.trans {m m' m'' : Memory} (h : Memory.same sp m m') (h' : Memory.same sp m' m'') :
    Memory.same sp m m'' := by
  cases sp <;> exact Eq.trans h h'

theorem Memory.same_withG (h : sp ≠ .g) (b : List Elem) : Memory.same sp { m with g := b } m := by
  cases sp with
  | g => exact absurd rfl h
  | _ => rfl

theorem Memory.same_withPerm (h : sp ≠ .perm) (b : List Word) : Memory.same sp { m with perm := b } m := by
  cases sp with
  | perm => exact absurd rfl h
  | _ => rfl

theorem Memory.same_withL (h : sp ≠ .l) (b : List Elem) : Memory.same sp { m with l := b } m := by
  cases sp with
  | l => exact absurd rfl h
  | _ => rfl

theorem Memory.same_withInv (h : sp ≠ .inv) (b : List Elem) : Memory.same sp { m with inv := b } m := by
  cases sp with
  | inv => exact absurd rfl h
  | _ => rfl

theorem Memory.same_withMat (h : sp ≠ .mat) (b : List Byte) : Memory.same sp { m with mat := b } m := by
  cases sp with
  | mat => exact absurd rfl h
  | _ => rfl

theorem Memory.same_withPk (h : sp ≠ .pk) (b : List Byte) : Memory.same sp { m with pk := b } m := by
  cases sp with
  | pk => exact absurd rfl h
  | _ => rfl

end same

section frame
variable (s : State) {sp : Space}

theorem skLoadg_same (hg : sp ≠ .g) : Memory.same sp (skLoadg s).mem s.mem := Memory.same_withG _ hg _

theorem supGen_same (hperm : sp ≠ .perm) (hl : sp ≠ .l) : Memory.same sp (supGen s).mem s.mem :=
  (Memory.same_withL _ hl _).trans (Memory.same_withPerm _ hperm _)

theorem rootEval_same (hinv : sp ≠ .inv) : Memory.same sp (rootEval s).mem s.mem := Memory.same_withInv _ hinv _

theorem matBuild_same (hinv : sp ≠ .inv) (hmat : sp ≠ .mat) : Memory.same sp (matBuild s).mem s.mem :=
  (Memory.same_withInv _ hinv _).trans (Memory.same_withMat _ hmat _)

theorem redRun_same (hmat : sp ≠ .mat) : Memory.same sp (redRun s).mem s.mem := by
  rw [redRun_mem]; exact Memory.same_withMat _ hmat _

theorem pkSer_same (hpk : sp ≠ .pk) : Memory.same sp (pkSer s).mem s.mem := Memory.same_withPk _ hpk _

theorem pkGenReduced_same (hsp : sp ∉ opcodeWrites .pkGen) : Memory.same sp (pkGenReduced s).mem s.mem := by
  simp only [opcodeWrites, List.mem_cons, List.not_mem_nil, not_or, or_false] at hsp
  obtain ⟨hg, hperm, hl, hinv, hmat⟩ := hsp
  exact (redRun_same _ hmat).trans <| (matBuild_same _ hinv hmat).trans <| (rootEval_same _ hinv).trans <|
    (supGen_same _ hperm hl).trans (skLoadg_same s hg)

/-- PK.GEN writes PK only when its reduction succeeds. -/
theorem pkGen_same (hsp : sp ∉ opcodeWrites .pkGen) (hpk : ¬ (sp = .pk ∧ (pkGen s).fail = false)) :
    Memory.same sp (pkGen s).mem s.mem := by
  rcases pkGen_cases s with ⟨hfail, hgen⟩ | ⟨-, hgen⟩
  · rw [pkGen_fail, hfail] at hpk
    rw [hgen]
    exact (pkSer_same _ fun hsp => hpk ⟨hsp, rfl⟩).trans (pkGenReduced_same s hsp)
  · rw [hgen]
    exact pkGenReduced_same s hsp

/-- A command leaves every buffer its row of R41 does not mark W. -/
theorem same_of_exec {i : Instr} {t : State} (h : exec i s = .next t) (hsp : sp ∉ opcodeWrites i.opcode)
    (hpk : ¬ (i.opcode = .pkGen ∧ sp = .pk ∧ t.fail = false)) : Memory.same sp t.mem s.mem := by
  cases i with
  | gfMul | gfInv | gfBitrev => cases h; exact Memory.same_refl _
  | skLoadg => cases h; exact skLoadg_same s (by simpa [Instr.opcode, opcodeWrites] using hsp)
  | supGen =>
    cases h
    obtain ⟨hperm, hl⟩ : sp ≠ .perm ∧ sp ≠ .l := by simpa [Instr.opcode, opcodeWrites] using hsp
    exact supGen_same s hperm hl
  | rootEval => cases h; exact rootEval_same s (by simpa [Instr.opcode, opcodeWrites] using hsp)
  | matBuild =>
    cases h
    obtain ⟨hinv, hmat⟩ : sp ≠ .inv ∧ sp ≠ .mat := by simpa [Instr.opcode, opcodeWrites] using hsp
    exact matBuild_same s hinv hmat
  | redRun => cases h; exact redRun_same s (by simpa [Instr.opcode, opcodeWrites] using hsp)
  | pkSer => cases h; exact pkSer_same s (by simpa [Instr.opcode, opcodeWrites] using hsp)
  | pkGen => cases h; exact pkGen_same s hsp fun hpk' => hpk ⟨rfl, hpk'⟩

end frame

/-! ## FR (10_state.md R22) -/

theorem redRun_withFr (s : State) (v : Elem) : redRun { s with fr := v } = { redRun s with fr := v } := by
  rw [redRun_eq, redRun_eq]

theorem pkGenReduced_withFr (s : State) (v : Elem) :
    pkGenReduced { s with fr := v } = { pkGenReduced s with fr := v } :=
  redRun_withFr (matBuild (rootEval (supGen (skLoadg s)))) v

theorem pkGen_withFr (s : State) (v : Elem) : pkGen { s with fr := v } = { pkGen s with fr := v } := by
  rcases pkGen_cases s with ⟨hfail, hgen⟩ | ⟨hfail, hgen⟩
  · have hfail' : (pkGenReduced { s with fr := v }).fail = false := by rw [pkGenReduced_withFr]; exact hfail
    rw [hgen, pkGen, if_pos hfail', pkGenReduced_withFr]
    rfl
  · have hfail' : ¬ (pkGenReduced { s with fr := v }).fail = false := by
      rw [pkGenReduced_withFr]; exact Bool.not_eq_false _ ▸ hfail
    rw [hgen, pkGen, if_neg hfail', pkGenReduced_withFr]

theorem redRun_fr (s : State) : (redRun s).fr = s.fr := by rw [redRun_eq]

theorem pkGenReduced_fr (s : State) : (pkGenReduced s).fr = s.fr := redRun_fr _

theorem pkGen_fr (s : State) : (pkGen s).fr = s.fr := by
  rcases pkGen_cases s with ⟨-, hgen⟩ | ⟨-, hgen⟩
  · rw [hgen]; exact pkGenReduced_fr s
  · rw [hgen]; exact pkGenReduced_fr s

/-- Settles O24: the field commands overwrite FR, and the other commands carry it through. -/
theorem fieldResultRegisterIsWriteOnlyToCommands : Obligations.FieldResultRegisterIsWriteOnlyToCommands := by
  intro i s v
  cases i with
  | gfMul a b => exact ⟨_, exec_gfMul s a b, Bool.noConfusion, rfl⟩
  | gfInv a => exact ⟨_, exec_gfInv s a, Bool.noConfusion, rfl⟩
  | gfBitrev a => exact ⟨_, exec_gfBitrev s a, Bool.noConfusion, rfl⟩
  | redRun => exact ⟨_, exec_redRun s, fun _ => redRun_fr s, congrArg _ (redRun_withFr s v)⟩
  | pkGen => exact ⟨_, exec_pkGen s, fun _ => pkGen_fr s, congrArg _ (pkGen_withFr s v)⟩
  | _ => exact ⟨_, rfl, fun _ => rfl, rfl⟩

/-- Settles O21: the buffers by the stages' frames, FR and STATUS by the commands that write them. -/
theorem commandsWriteOnlyWhatTheTableSays : Obligations.CommandsWriteOnlyWhatTheTableSays := by
  intro i s t ht
  refine ⟨fun sp => same_of_exec s ht, fun hfr => ?_, fun hstatus => ?_, sameHost_of_exec ht⟩
  · obtain ⟨t', ht', hkeep, -⟩ := fieldResultRegisterIsWriteOnlyToCommands i s 0
    cases ht'.symm.trans ht
    exact hkeep hfr
  · have hred : i ≠ .redRun := by rintro rfl; cases hstatus
    have hgen : i ≠ .pkGen := by rintro rfl; cases hstatus
    obtain ⟨t', ht', hkeep, -⟩ := exec_carries_status hred hgen s
    cases ht'.symm.trans ht
    exact hkeep

end Sys2Proof.Machine
end

section
/-! SUPPORT. Steps and runs (70_reset_and_hazards.md R260, R273; 20_memory.md R56): everything an item of the run can
do, and what that keeps along a run: the parameter set, the invariant, the rest of the run. -/

namespace Sys2Proof.Machine

/-! ## Everything an item of the run can do -/

/-- The state an item of the run answers, by the form of the item. -/
inductive MoveAnswers (s : State) : HostMove → State → Prop
  | command {w : Word} {i : Instr} {t : State} (hdec : decode w = .ok i)
      (hexec : exec i { s with index := s.index + 1 } = .next t) : MoveAnswers s (.command w) t
  | hostWrite {sp : Space} {idx v : Nat} (hidx : idx < s.params.cells sp) :
      MoveAnswers s (.hostWrite sp idx v) { s with mem := s.mem.store s.params sp idx v }
  | hostRead {sp : Space} {idx : Nat} (hidx : idx < s.params.cells sp) :
      MoveAnswers s (.hostRead sp idx) { s with replies := s.replies ++ [.cell sp idx (s.mem.load sp idx)] }
  | hostReadReg (r : Reg) : MoveAnswers s (.hostReadReg r) { s with replies := s.replies ++ [.reg r (s.readReg r)] }
  | reset : MoveAnswers s .reset (resetUnit s)
  | resetDuring {w : Word} {i : Instr} (hdec : decode w = .ok i) :
      MoveAnswers s (.resetDuring w) (resetUnit { s with index := s.index + 1 })

theorem runMove_eq_next_iff {m : HostMove} {s t : State} : runMove m s = .next t ↔ MoveAnswers s m t := by
  constructor
  · intro h
    cases m with
    | command w =>
      simp only [runMove, issue] at h
      split at h
      · next hdec => exact .command hdec h
      · cases h
    | hostWrite sp idx v =>
      simp only [runMove, Machine.hostWrite] at h
      split at h
      · next hidx => cases h; exact .hostWrite hidx
      · cases h
    | hostRead sp idx =>
      simp only [runMove, Machine.hostRead] at h
      split at h
      · next hidx => cases h; exact .hostRead hidx
      · cases h
    | hostReadReg r => cases h; exact .hostReadReg r
    | reset => cases h; exact .reset
    | resetDuring w =>
      simp only [runMove, issueThenReset] at h
      split at h
      · next hdec => cases h; exact .resetDuring hdec
      · cases h
  · intro h
    cases h with
    | command hdec hexec => simp only [runMove, issue, hdec, hexec]
    | hostWrite hidx => exact if_pos hidx
    | hostRead hidx => exact if_pos hidx
    | hostReadReg r => rfl
    | reset => rfl
    | resetDuring hdec => simp only [runMove, issueThenReset, hdec]

/-- A step with an item pending answers what the item does with the rest of the run behind it. -/
theorem step_eq_next_iff {s t : State} {m : HostMove} {rest : List HostMove} (h : s.pending = m :: rest) :
    step s = .next t ↔ MoveAnswers { s with pending := rest } m t := by
  rw [step_of_pending h, runMove_eq_next_iff]

/-- Settles O10: a step reads nothing but the rest of the run. -/
theorem idleUnitHoldsItsState : Obligations.IdleUnitHoldsItsState := fun s h => by
  simp only [step, h]

/-- Everything a step can do: nothing when the run has ended, else what the next item does. -/
theorem step_cases {s t : State} (h : step s = .next t) :
    (s.pending = [] ∧ t = s) ∨
      ∃ m rest, s.pending = m :: rest ∧ MoveAnswers { s with pending := rest } m t := by
  cases hpend : s.pending with
  | nil => exact .inl ⟨rfl, by rw [idleUnitHoldsItsState s hpend] at h; cases h; rfl⟩
  | cons m rest => exact .inr ⟨m, rest, rfl, (step_eq_next_iff hpend).1 h⟩

/-- Settles O8: the decoder's answer decides which arm of `exec` an issued word runs. -/
theorem stepRunsTheDecodedCommand : Obligations.StepRunsTheDecodedCommand := by
  intro s w rest i hpend hdec
  rw [step_of_pending hpend]
  simp only [runMove, issue, hdec]

/-- Settles O15: the range check comes before the access. -/
theorem hostAccessOutOfRangeIsRefused : Obligations.HostAccessOutOfRangeIsRefused := by
  intro s rest sp idx v hidx
  refine ⟨fun hpend => ?_, fun hpend => ?_⟩
  · rw [step_of_pending hpend]; exact if_neg (Nat.not_lt.2 hidx)
  · rw [step_of_pending hpend]; exact if_neg (Nat.not_lt.2 hidx)

/-- Settles O17: both items reset the unit, and only one of them counts a command. -/
theorem resetDuringACommandAbandonsIt : Obligations.ResetDuringACommandAbandonsIt := by
  rintro s s' rest w i hpend hdec rfl
  exact ⟨_, step_of_pending_reset rfl, (step_eq_next_iff hpend).2 (.resetDuring hdec)⟩

/-! ## What every item keeps -/

/-- No item changes the parameter set or the rest of the run. -/
theorem MoveAnswers.params_pending {s t : State} {m : HostMove} (h : MoveAnswers s m t) :
    t.params = s.params ∧ t.pending = s.pending := by
  cases h with
  | command _ hexec =>
    obtain ⟨hparams, hpending, -⟩ := sameHost_of_exec hexec
    exact ⟨hparams, hpending⟩
  | _ => exact ⟨rfl, rfl⟩

/-- Settles O20: no item of the run changes the parameter set. -/
theorem everyStepKeepsTheParameters : Obligations.EveryStepKeepsTheParameters := by
  intro s t ht
  rcases step_cases ht with ⟨-, rfl⟩ | ⟨m, rest, -, hmove⟩
  · rfl
  · exact hmove.params_pending.1

/-- Settles O9: a command is run with its index already counted, and no command writes the index. -/
theorem commandIndexAdvancesByOne : Obligations.CommandIndexAdvancesByOne := by
  refine ⟨rfl, fun s t w rest hpend ht => ?_, fun s t m rest hpend ht hm => ?_⟩
  · have hmove := (step_eq_next_iff hpend).1 ht
    refine ⟨?_, hmove.params_pending.2⟩
    cases hmove with
    | command _ hexec =>
      obtain ⟨-, -, hindex, -⟩ := sameHost_of_exec hexec
      exact hindex
  · have hmove := (step_eq_next_iff hpend).1 ht
    refine ⟨?_, hmove.params_pending.2⟩
    cases hmove with
    | command => exact absurd rfl (hm _).1
    | resetDuring => exact absurd rfl (hm _).2
    | _ => rfl

/-! ## The invariant -/

/-- Settles O18: a reset memory has the form and FR is masked, whatever the free values are. -/
theorem resetMeetsTheInvariant : Obligations.ResetMeetsTheInvariant := by
  have hinitial : ∀ p : Params, p.wellFormed = true → (State.initial p).Inv := fun p h =>
    ⟨h, resetMemory_wf p 0, elemOk_and_gfmask p _, .inl rfl⟩
  exact ⟨hinitial Params.hw Tests.test_params_hw, hinitial⟩

theorem sext32_cases (f : Bool) : sext32 f = 0x00000000#32 ∨ sext32 f = 0xFFFFFFFF#32 := by
  cases f
  · exact .inl sext32_false
  · exact .inr sext32_true

section inv
variable {s : State} (hs : s.Inv)
include hs

theorem setFr_inv {v : Elem} (hv : elemOk s.params v) : (s.setFr v).Inv := ⟨hs.params, hs.memory, hv, hs.status⟩

theorem redRun_inv : (redRun s).Inv := by
  rw [redRun_eq]
  exact ⟨hs.params, reduce_wf hs.memory, hs.fr, sext32_cases _⟩

theorem pkSer_inv : (pkSer s).Inv := ⟨hs.params, serialize_wf hs.memory _, hs.fr, hs.status⟩

theorem pkGenReduced_inv : (pkGenReduced s).Inv :=
  redRun_inv (matBuild_inv (rootEval_inv (supGen_inv (skLoadg_inv hs))))

theorem pkGen_inv : (pkGen s).Inv := by
  rcases pkGen_cases s with ⟨-, hgen⟩ | ⟨-, hgen⟩
  · rw [hgen]; exact pkSer_inv (pkGenReduced_inv hs)
  · rw [hgen]; exact pkGenReduced_inv hs

theorem exec_inv {i : Instr} {t : State} (ht : exec i s = .next t) : t.Inv := by
  obtain ⟨h1, h13, -⟩ := Params.wellFormed_field hs.params
  cases i with
  | gfMul a b => cases ht; exact setFr_inv hs (elemOk_gfMul _ _ _)
  | gfInv a => cases ht; exact setFr_inv hs (elemOk_gfInv _ h1 _)
  | gfBitrev a => cases ht; exact setFr_inv hs (elemOk_gfBitrev _ h13 _)
  | skLoadg => cases ht; exact skLoadg_inv hs
  | supGen => cases ht; exact supGen_inv hs
  | rootEval => cases ht; exact rootEval_inv hs
  | matBuild => cases ht; exact matBuild_inv hs
  | redRun => cases ht; exact redRun_inv hs
  | pkSer => cases ht; exact pkSer_inv hs
  | pkGen => cases ht; exact pkGen_inv hs

theorem resetUnit_inv : (resetUnit s).Inv :=
  ⟨hs.params, resetMemory_wf s.params s.draws, elemOk_and_gfmask s.params _, .inl rfl⟩

/-- The invariant says nothing of the host's state. -/
theorem withHost_inv (pending : List HostMove) (index : Nat) (replies : List Reply) :
    { s with pending := pending, index := index, replies := replies }.Inv :=
  ⟨hs.params, hs.memory, hs.fr, hs.status⟩

theorem MoveAnswers.inv {m : HostMove} {t : State} (h : MoveAnswers s m t) : t.Inv := by
  cases h with
  | command _ hexec => exact exec_inv (withHost_inv hs _ _ _) hexec
  | hostWrite _ => exact ⟨hs.params, store_wf s.params hs.memory _ _ _, hs.fr, hs.status⟩
  | hostRead _ => exact withHost_inv hs _ _ _
  | hostReadReg _ => exact withHost_inv hs _ _ _
  | reset => exact resetUnit_inv hs
  | resetDuring _ => exact resetUnit_inv (withHost_inv hs _ _ _)

end inv

/-- Settles O19: every stage writes its buffers whole and with elements, host writes and resets mask theirs, and STATUS
is written with one of its two values only. -/
theorem everyStepKeepsTheInvariant : Obligations.EveryStepKeepsTheInvariant := by
  intro s t hs ht
  rcases step_cases ht with ⟨-, rfl⟩ | ⟨m, rest, -, hmove⟩
  · exact hs
  · exact MoveAnswers.inv (withHost_inv hs rest s.index s.replies) hmove

/-! ## Runs (70_reset_and_hazards.md R273) -/

/-- Every legal item answers a next state. -/
theorem exists_moveAnswers_of_legal {s : State} {m : HostMove} (h : m.legal s.params = true) :
    ∃ t, MoveAnswers s m t := by
  cases m with
  | command w =>
    cases hdec : decode w with
    | error e => simp [HostMove.legal, hdec] at h
    | ok i =>
      obtain ⟨t, ht⟩ := everyCommandTerminates i { s with index := s.index + 1 }
      exact ⟨t, .command hdec ht⟩
  | hostWrite sp idx v => exact ⟨_, .hostWrite (of_decide_eq_true h)⟩
  | hostRead sp idx => exact ⟨_, .hostRead (of_decide_eq_true h)⟩
  | hostReadReg r => exact ⟨_, .hostReadReg r⟩
  | reset => exact ⟨_, .reset⟩
  | resetDuring w => cases h

theorem run_succ_of_step {s t : State} (h : step s = .next t) (k : Nat) :
    Host.Core.run core (k + 1) s = Host.Core.run core k t := by
  have hcore : core.step s = .next t := h
  simp only [Host.Core.run, hcore]

theorem run_succ_of_refused {s : State} {r : Refusal} (h : step s = .refused r) (k : Nat) :
    Host.Core.run core (k + 1) s = .refused r := by
  have hcore : core.step s = .refused r := h
  simp only [Host.Core.run, hcore]

/-- The steps of the legal items at the front of a run, and the state with the rest of the run before it. -/
theorem run_of_legal {s : State} {front post : List HostMove} (hpend : s.pending = front ++ post)
    (hlegal : front.all (HostMove.legal s.params) = true) : ∃ t, t.pending = post ∧
      ∀ k, Host.Core.run core (front.length + k) s = Host.Core.run core k t := by
  induction front generalizing s with
  | nil => exact ⟨s, hpend, fun k => by rw [List.length_nil, Nat.zero_add]⟩
  | cons m front ih =>
    rw [List.all_cons, Bool.and_eq_true] at hlegal
    obtain ⟨hm, hfront⟩ := hlegal
    obtain ⟨u, hu⟩ := exists_moveAnswers_of_legal (s := { s with pending := front ++ post }) hm
    obtain ⟨hparams, hpending⟩ := hu.params_pending
    obtain ⟨t, ht, hrun⟩ := ih hpending (by rw [hparams]; exact hfront)
    refine ⟨t, ht, fun k => ?_⟩
    rw [List.length_cons, Nat.succ_add, run_succ_of_step ((step_eq_next_iff hpend).2 hu), hrun]

/-- A unit with nothing pending holds its state for any number of steps. -/
theorem run_of_idle {s : State} (h : s.pending = []) (k : Nat) : Host.Core.run core k s = .next s := by
  induction k with
  | zero => rfl
  | succ k ih => rw [run_succ_of_step (idleUnitHoldsItsState s h), ih]

/-- Any number of steps of a legal run ends in a state with that many items fewer left. -/
theorem run_of_runLegal {s : State} (h : s.runLegal = true) (k : Nat) :
    ∃ t, Host.Core.run core k s = .next t ∧ t.pending = s.pending.drop k := by
  have hfront : (s.pending.take k).all (HostMove.legal s.params) = true :=
    List.all_eq_true.2 fun m hm => List.all_eq_true.1 h m (List.mem_of_mem_take hm)
  obtain ⟨t, ht, hrun⟩ := run_of_legal (List.take_append_drop k s.pending).symm hfront
  refine ⟨t, ?_, ht⟩
  rcases Nat.le_total k s.pending.length with hk | hk
  · rw [← Nat.add_zero k, ← List.length_take_of_le hk, hrun]; rfl
  · rw [List.drop_of_length_le hk] at ht
    rw [List.take_of_length_le hk] at hrun
    rw [← Nat.add_sub_cancel' hk, hrun, run_of_idle ht]

/-- Settles O12: each legal item answers a state with the rest of the run, up to its end or a refused word. -/
theorem runsOfLegalMovesComplete : Obligations.RunsOfLegalMovesComplete := by
  refine ⟨fun s h k => ?_, fun s h => ?_, fun s front post w e hpend hlegal hdec k hk => ?_⟩
  · obtain ⟨t, ht, -⟩ := run_of_runLegal h k
    exact ⟨t, ht⟩
  · obtain ⟨t, ht, hpend⟩ := run_of_runLegal h s.pending.length
    exact ⟨t, ht, hpend.trans List.drop_length⟩
  · obtain ⟨t, ht, hrun⟩ := run_of_legal hpend hlegal
    obtain ⟨j, rfl⟩ := Nat.exists_eq_add_of_lt hk
    rw [Nat.add_assoc, hrun, run_succ_of_refused (step_of_pending_undefined ht hdec)]

end Sys2Proof.Machine
end

section
/-! SUPPORT. Host accesses (20_memory.md R58): what a write leaves in every cell of every space, and the
steps that read. -/

namespace Sys2Proof.Machine

/-! ## Reading after a host write -/

/-- What a host write of `v` leaves in its cell, as a number. -/
def storedValue (p : Params) (sp : Space) (v : Nat) : Nat :=
  match sp with
  | .g | .l | .inv => v % 2 ^ p.gfbits
  | .perm => v % 2 ^ 32
  | .sk | .mat | .pk => v % 2 ^ 8

/-- A host write leaves the other spaces. -/
theorem store_same (p : Params) (m : Memory) {sp sp' : Space} (h : sp' ≠ sp) (i v : Nat) :
    Memory.same sp' (m.store p sp i v) m := by
  cases sp with
  | sk =>
    cases sp' with
    | sk => exact absurd rfl h
    | _ => rfl
  | g => exact m.same_withG h _
  | perm => exact m.same_withPerm h _
  | l => exact m.same_withL h _
  | inv => exact m.same_withInv h _
  | mat => exact m.same_withMat h _
  | pk => exact m.same_withPk h _

theorem load_of_same {m m' : Memory} {sp : Space} (h : Memory.same sp m m') (i : Nat) : m.load sp i = m'.load sp i := by
  cases sp <;> simp only [Memory.same] at h <;> simp only [Memory.load, h]

/-- A cell read back after one was written, zero-extended. -/
theorem toNat_setWidth_cell_setCell {w : Nat} (hw : w ≤ 32) {buf : List (BitVec w)} {i : Nat} (hi : i < buf.length)
    (x : BitVec w) (j : Nat) : ((cell (setCell buf i x) j).setWidth 32).toNat =
      if j = i then x.toNat else ((cell buf j).setWidth 32).toNat := by
  rw [cell_setCell buf i j x hi]
  split
  · exact BitVec.toNat_setWidth_of_le hw
  · rfl

section store
variable {p : Params} (h13 : p.gfbits ≤ 13) {m : Memory} (hm : Memory.wf p m)
include h13 hm

/-- A host write changes one cell of its space. -/
theorem toNat_load_store_same {sp : Space} {i : Nat} (hi : i < p.cells sp) (v j : Nat) :
    ((m.store p sp i v).load sp j).toNat = if j = i then storedValue p sp v else (m.load sp j).toNat := by
  obtain ⟨hsk, hg, hperm, hl, hinv, hmat, hpk, -⟩ := hm
  have helem (buf : List Elem) (hi : i < buf.length) := toNat_setWidth_cell_setCell (by decide) hi (toElem p v) j
  have hbyte (buf : List Byte) (hi : i < buf.length) := toNat_setWidth_cell_setCell (by decide) hi (BitVec.ofNat 8 v) j
  simp only [toNat_toElem p h13] at helem
  simp only [BitVec.toNat_ofNat] at hbyte
  cases sp with
  | sk => exact hbyte m.sk (hsk ▸ hi)
  | g => exact helem m.g (hg ▸ hi)
  | perm =>
    simp only [Memory.load, Memory.store, cell_setCell m.perm i j _ (hperm ▸ hi), storedValue]
    split
    · exact BitVec.toNat_ofNat v 32
    · rfl
  | l => exact helem m.l (hl ▸ hi)
  | inv => exact helem m.inv (hinv ▸ hi)
  | mat => exact hbyte m.mat (hmat ▸ hi)
  | pk => exact hbyte m.pk (hpk ▸ hi)

theorem toNat_load_store {sp : Space} {i : Nat} (hi : i < p.cells sp) (v : Nat) (sp' : Space) (j : Nat) :
    ((m.store p sp i v).load sp' j).toNat =
      if sp' = sp ∧ j = i then storedValue p sp v else (m.load sp' j).toNat := by
  by_cases hsp : sp' = sp
  · subst hsp
    simpa using toNat_load_store_same h13 hm hi v j
  · rw [load_of_same (store_same p m hsp i v), if_neg fun h => hsp h.1]

end store

/-! ## The steps -/

/-- A step that writes a cell, and every cell after it. -/
theorem step_hostWrite {s : State} (hs : s.Inv) {rest : List HostMove} {sp : Space} {idx : Nat} (v : Nat)
    (hpend : s.pending = .hostWrite sp idx v :: rest) (hidx : idx < s.params.cells sp) :
    step s = .next { s with pending := rest, mem := s.mem.store s.params sp idx v } ∧
      ∀ sp' idx', ((s.mem.store s.params sp idx v).load sp' idx').toNat =
        if sp' = sp ∧ idx' = idx then storedValue s.params sp v else (s.mem.load sp' idx').toNat := by
  obtain ⟨-, h13, -⟩ := Params.wellFormed_field hs.params
  exact ⟨(step_eq_next_iff hpend).2 (.hostWrite hidx), toNat_load_store h13 hs.memory hidx v⟩

theorem storedValue_of_byte (p : Params) {sp : Space} (hsp : sp = .sk ∨ sp = .mat ∨ sp = .pk) (v : Nat) :
    storedValue p sp v = v % 2 ^ 8 := by
  rcases hsp with rfl | rfl | rfl <;> rfl

/-- A value that fits its cell is masked as R58 says. -/
theorem storedValue_of_fits (p : Params) {sp : Space} {v : Nat} (hv : sp = .sk ∨ sp = .mat ∨ sp = .pk → v < 2 ^ 8) :
    storedValue p sp v = if sp = .g ∨ sp = .l ∨ sp = .inv then v % 2 ^ p.gfbits else v % 2 ^ 32 := by
  have hbyte (h : v < 2 ^ 8) : v % 2 ^ 8 = v % 2 ^ 32 := by omega
  cases sp with
  | g | l | inv | perm => rfl
  | sk => exact hbyte (hv (.inl rfl))
  | mat => exact hbyte (hv (.inr (.inl rfl)))
  | pk => exact hbyte (hv (.inr (.inr rfl)))

/-- Settles O13: a write changes its one cell, and a read appends what it read. -/
theorem hostAccessesMoveOneCell : Obligations.HostAccessesMoveOneCell := by
  intro s rest hs
  refine ⟨fun sp idx v hpend hidx hv => ?_, fun sp idx hpend hidx => ?_, fun hpend => ?_, fun hpend => ?_⟩
  · obtain ⟨hstep, hcells⟩ := step_hostWrite hs v hpend hidx
    rw [storedValue_of_fits s.params hv] at hcells
    exact ⟨_, hstep, hcells⟩
  · exact (step_eq_next_iff hpend).2 (.hostRead hidx)
  · exact (step_eq_next_iff hpend).2 (.hostReadReg .fr)
  · exact (step_eq_next_iff hpend).2 (.hostReadReg .status)

/-- Settles O14: the cell of a byte space keeps the value modulo 256. -/
theorem hostByteWritesKeepTheLowByte : Obligations.HostByteWritesKeepTheLowByte := by
  intro s rest sp idx v hs hsp hpend hidx
  obtain ⟨hstep, hcells⟩ := step_hostWrite hs v hpend hidx
  rw [storedValue_of_byte s.params hsp] at hcells
  exact ⟨_, hstep, hcells⟩

end Sys2Proof.Machine
end

section
/-! SUPPORT. The field laws (40_field_arithmetic.md R104 to R111): elements multiply as members of GF(2)[x] modulo
FIELD_POLY do, gf_mul is the residue of the carry-less product there, and gf_bitrev reverses an element's bits. -/

namespace Sys2Proof.Machine

open Polynomial

/-- Settles O7: the table of R8, computed from the four parameters of the hardware. -/
theorem hardwareParameterValues : Obligations.HardwareParameterValues :=
  ⟨rfl, by decide, rfl, rfl, rfl, by decide, by decide, by decide, by decide, rfl, rfl, Tests.test_params_hw, rfl⟩

/-! ## The laws of gf_mul (R105) -/

section laws
variable {p : Params} (h : p.wellFormed = true) {a b c : Elem}
include h

theorem gfMul_comm (ha : elemOk p a) (hb : elemOk p b) : gfMul p a b = gfMul p b a := by
  rw [← toField_inj h (elemOk_gfMul p a b) (elemOk_gfMul p b a), toField_gfMul h ha hb, toField_gfMul h hb ha, mul_comm]

theorem gfMul_assoc (ha : elemOk p a) (hb : elemOk p b) (hc : elemOk p c) :
    gfMul p (gfMul p a b) c = gfMul p a (gfMul p b c) := by
  rw [← toField_inj h (elemOk_gfMul p _ _) (elemOk_gfMul p _ _), toField_gfMul h (elemOk_gfMul p a b) hc,
    toField_gfMul h ha hb, toField_gfMul h ha (elemOk_gfMul p b c), toField_gfMul h hb hc, mul_assoc]

theorem gfMul_one (ha : elemOk p a) : gfMul p a 1 = a := by
  obtain ⟨h1, -⟩ := Params.wellFormed_field h
  rw [← toField_inj h (elemOk_gfMul p a 1) ha, toField_gfMul h ha (elemOk_one p h1), toField_one, mul_one]

theorem gfMul_zero (ha : elemOk p a) : gfMul p a 0 = 0 := by
  rw [← toField_inj h (elemOk_gfMul p a 0) (elemOk_zero p), toField_gfMul h ha (elemOk_zero p), toField_zero, mul_zero]

theorem zero_gfMul (ha : elemOk p a) : gfMul p 0 a = 0 := by
  rw [gfMul_comm h (elemOk_zero p) ha, gfMul_zero h ha]

/-- gf_mul distributes over the sum of elements, which is exclusive or (R103). -/
theorem gfMul_gfAdd (ha : elemOk p a) (hb : elemOk p b) (hc : elemOk p c) :
    gfMul p a (gfAdd b c) = gfAdd (gfMul p a b) (gfMul p a c) := by
  have hbc := elemOk_gfAdd p hb hc
  rw [← toField_inj h (elemOk_gfMul p _ _) (elemOk_gfAdd p (elemOk_gfMul p a b) (elemOk_gfMul p a c)),
    toField_gfMul h ha hbc, toField_gfAdd, toField_gfAdd, toField_gfMul h ha hb, toField_gfMul h ha hc, mul_add]

/-- The quotient is a field, since FIELD_POLY is irreducible, so it has no zero divisors. -/
theorem eq_zero_or_eq_zero_of_gfMul_eq_zero (ha : elemOk p a) (hb : elemOk p b) (hab : gfMul p a b = 0) :
    a = 0 ∨ b = 0 := by
  obtain ⟨-, -, -, -, hirr⟩ := Params.wellFormed_field h
  have : Fact (Irreducible (toPoly p.fieldPoly)) := ⟨hirr⟩
  have hprod : toField p a * toField p b = 0 := by rw [← toField_gfMul h ha hb, hab, toField_zero]
  rw [← toField_inj h ha (elemOk_zero p), ← toField_inj h hb (elemOk_zero p), toField_zero]
  exact mul_eq_zero.1 hprod

end laws

/-- Settles O25: the laws hold in the field the elements stand for. -/
theorem fieldMultiplicationLaws : Obligations.FieldMultiplicationLaws := fun _ _ _ _ h ha hb hc =>
  ⟨gfMul_comm h ha hb, gfMul_assoc h ha hb hc, gfMul_one h ha, gfMul_zero h ha, gfMul_gfAdd h ha hb hc,
    eq_zero_or_eq_zero_of_gfMul_eq_zero h ha hb⟩

/-! ## gf_mul as a residue (R104) -/

section residue
variable {p : Params} (h : p.wellFormed = true)
include h

/-- Two numbers differ by a carry-less multiple of FIELD_POLY exactly when they are equal modulo FIELD_POLY. -/
theorem exists_eq_xor_clmul_iff (x r : Nat) : (∃ q, x = r ^^^ clmul (p.gfbits + 1) q p.fieldPoly) ↔
    AdjoinRoot.mk (toPoly p.fieldPoly) (toPoly x) = AdjoinRoot.mk (toPoly p.fieldPoly) (toPoly r) := by
  obtain ⟨-, -, -, hdeg, -⟩ := Params.wellFormed_field h
  rw [AdjoinRoot.mk_eq_mk]
  constructor
  · rintro ⟨q, rfl⟩
    rw [toPoly_xor, toPoly_clmul_of_lt q hdeg, add_sub_cancel_left]
    exact dvd_mul_left _ _
  · rintro ⟨f, hf⟩
    obtain ⟨q, -, rfl⟩ := exists_toPoly (f.natDegree + 1) f
      (degree_le_natDegree.trans_lt (by exact_mod_cast Nat.lt_succ_self _))
    refine ⟨q, toPoly_inj.1 ?_⟩
    rw [toPoly_xor, toPoly_clmul_of_lt q hdeg, mul_comm, ← hf, add_sub_cancel]

theorem mk_toPoly_clmul {a b : Elem} (ha : elemOk p a) (hb : elemOk p b) :
    AdjoinRoot.mk (toPoly p.fieldPoly) (toPoly (clmul p.gfbits a.toNat b.toNat)) = toField p (gfMul p a b) := by
  rw [toPoly_clmul_of_lt a.toNat hb, map_mul, toField_gfMul h ha hb]
  rfl

end residue

/-- Settles O26: gf_mul is equal to the carry-less product modulo FIELD_POLY, and two elements equal there are equal. -/
theorem fieldProductIsTheUniqueResidue : Obligations.FieldProductIsTheUniqueResidue := by
  intro p a b h ha hb
  have hab := elemOk_gfMul p a b
  refine ⟨(exists_eq_xor_clmul_iff h _ _).2 (mk_toPoly_clmul h ha hb), hab, fun r q hr hq => ?_⟩
  obtain ⟨-, h13, -⟩ := Params.wellFormed_field h
  have hnat : (BitVec.ofNat 13 r).toNat = r :=
    (BitVec.toNat_ofNat r 13).trans (Nat.mod_eq_of_lt (hr.trans_le (Nat.pow_le_pow_right two_pos h13)))
  have hfield : toField p (BitVec.ofNat 13 r) = toField p (gfMul p a b) := by
    rw [← mk_toPoly_clmul h ha hb, (exists_eq_xor_clmul_iff h _ _).1 ⟨q, hq⟩, toField, hnat]
  rw [← (toField_inj h (by rw [elemOk, hnat]; exact hr) hab).1 hfield, hnat]

/-! ## gf_inv (R107, R111) -/

section inverse
variable {p : Params} (h : p.wellFormed = true) {a : Elem} (ha : elemOk p a)
include h

theorem gfPow_zero_succ (n : Nat) : gfPow p 0 (n + 1) = 0 := by
  obtain ⟨h1, -⟩ := Params.wellFormed_field h
  exact gfMul_zero h (elemOk_gfPow p h1 0 n)

theorem gfInv_one : gfInv p 1 = 1 := by
  obtain ⟨h1, -⟩ := Params.wellFormed_field h
  have hone := elemOk_one p h1
  exact eq_of_gfMul_eq_one h hone (elemOk_gfInv p h1 1) hone (gfMul_gfInv h hone (by decide)) (gfMul_one h hone)

include ha

/-- The inverse of the inverse: at 0 by R106, elsewhere since an inverse is inverted by what it inverts. -/
theorem gfInv_gfInv : gfInv p (gfInv p a) = a := by
  obtain ⟨h1, -⟩ := Params.wellFormed_field h
  have hinv := elemOk_gfInv p h1 a
  by_cases h0 : a = 0
  · subst h0; rfl
  · have hmul : gfMul p (gfInv p a) a = 1 := by rw [gfMul_comm h hinv ha, gfMul_gfInv h ha h0]
    have hne : gfInv p a ≠ 0 := by
      intro hzero
      rw [hzero, zero_gfMul h ha] at hmul
      exact absurd hmul (by decide)
    exact eq_of_gfMul_eq_one h hinv (elemOk_gfInv p h1 _) ha (gfMul_gfInv h hinv hne) hmul

/-- gf_inv is a power of at least two factors when GFBITS is at least 2, so the power of 0 is 0 as well. -/
theorem gfInv_eq_gfPow (h2 : 2 ≤ p.gfbits) : gfInv p a = gfPow p a (2 ^ p.gfbits - 2) := by
  obtain ⟨h1, -⟩ := Params.wellFormed_field h
  by_cases h0 : a = 0
  · obtain ⟨n, hn⟩ : ∃ n, 2 ^ p.gfbits - 2 = n + 1 := by
      have hfour : 2 ^ 2 ≤ 2 ^ p.gfbits := Nat.pow_le_pow_right two_pos h2
      exact ⟨2 ^ p.gfbits - 3, by omega⟩
    rw [h0, gfInv_zero, hn, gfPow_zero_succ h]
  · rw [← toField_inj h (elemOk_gfInv p h1 a) (elemOk_gfPow p h1 a _), toField_gfInv h ha h0, toField_gfPow h ha]

end inverse

/-- Settles O28: both sides are the same power in the field. -/
theorem fieldInverseIsThePower : Obligations.FieldInverseIsThePower := fun _ _ h h2 ha => gfInv_eq_gfPow h ha h2

/-! ## gf_bitrev (R108) -/

section bitrev
variable {p : Params} (h13 : p.gfbits ≤ 13)
include h13

theorem gfBitrev_gfBitrev {a : Elem} (ha : elemOk p a) : gfBitrev p (gfBitrev p a) = a := by
  refine BitVec.eq_of_getLsbD_eq fun i _ => ?_
  rw [getLsbD_gfBitrev p h13, getLsbD_gfBitrev p h13]
  by_cases hi : i < p.gfbits
  · have hback : p.gfbits - 1 - (p.gfbits - 1 - i) = i := by omega
    simp [hback, hi, show p.gfbits - 1 - i < p.gfbits by omega]
  · simp [hi, getLsbD_of_elemOk ha (Nat.le_of_not_lt hi)]

theorem gfBitrev_inj {a b : Elem} (ha : elemOk p a) (hb : elemOk p b) : gfBitrev p a = gfBitrev p b ↔ a = b :=
  ⟨fun hab => by rw [← gfBitrev_gfBitrev h13 ha, hab, gfBitrev_gfBitrev h13 hb], congrArg _⟩

end bitrev

/-- Settles O29: an involution on the elements is a bijection of them. -/
theorem bitReversalIsAnInvolution : Obligations.BitReversalIsAnInvolution := by
  intro p h13
  have hok := elemOk_gfBitrev p h13
  refine ⟨getLsbD_gfBitrev p h13, fun a ha => ⟨hok a, gfBitrev_gfBitrev h13 ha⟩,
    fun b hb => ⟨gfBitrev p b, hok b, gfBitrev_gfBitrev h13 hb, fun a ha hab => ?_⟩, fun _ _ => rfl⟩
  rw [← hab, gfBitrev_gfBitrev h13 ha]

/-! ## GF.MUL and GF.INV (R110, R111) -/

/-- The example of R110, at the hardware parameters. -/
theorem exec_gfMul_hw {s : State} (hs : s.params = Params.hw) :
    exec (.gfMul 0x0002 0x1000) s = .next (s.setFr 0x001B) := by
  have hvalue : gfMul Params.hw (operand Params.hw 0x0002) (operand Params.hw 0x1000) = 0x001B := by decide
  rw [exec_gfMul, hs, hvalue]

/-- The example of R111, at the hardware parameters. -/
theorem exec_gfInv_hw {s : State} (hs : s.params = Params.hw) : exec (.gfInv 0x0002) s = .next (s.setFr 0x100D) := by
  have hoperand : operand Params.hw 0x0002 = 0x0002 := by decide
  rw [exec_gfInv, hs, hoperand, Tests.test_gfInv_hw.1]

/-- Settles O30: the command writes gf_mul of the masked operands by definition; the corner cases are laws of gf_mul. -/
theorem gfMulWritesTheProduct : Obligations.GfMulWritesTheProduct := by
  refine ⟨exec_gfMul, fun s a b h => ?_, by decide, fun _ hs => exec_gfMul_hw hs⟩
  have ha : elemOk s.params (a &&& s.params.gfmask) := elemOk_and_gfmask _ a
  have hb : elemOk s.params (b &&& s.params.gfmask) := elemOk_and_gfmask _ b
  have hcomm := gfMul_comm h ha hb
  refine ⟨_, exec_gfMul s a b, ?_, elemOk_gfMul _ _ _, fun hzero => ?_, fun hone => ?_, fun hone => ?_⟩
  · rw [exec_gfMul]; exact congrArg (fun r => Host.Outcome.next (s.setFr r)) hcomm.symm
  · rcases hzero with hzero | hzero
    · rw [operand, hzero]; exact zero_gfMul h hb
    · rw [operand, operand, hzero]; exact gfMul_zero h ha
  · rw [operand, operand, hcomm, hone, gfMul_one h hb]
  · rw [operand, operand, hone, gfMul_one h ha]

/-- Settles O31: the command writes gf_inv of the masked operand by definition; gf_inv is its own inverse. -/
theorem gfInvWritesTheInverse : Obligations.GfInvWritesTheInverse :=
  ⟨exec_gfInv, fun p h => ⟨gfInv_zero p, gfInv_one h, fun _ => gfInv_gfInv h⟩, by decide, fun _ hs => exec_gfInv_hw hs⟩

end Sys2Proof.Machine
end

section
/-! SUPPORT. The permutation SUP.GEN leaves (41_support_generator.md R124 to R131): the order of its entries, that they
are all indices, and what a second SUP.GEN makes of them. -/

namespace Sys2Proof.Machine

/-! ## Lists and maps of indices -/

theorem nodup_of_cell {w : Nat} {b : List (BitVec w)} (h : ∀ i j, i < j → j < b.length → cell b i ≠ cell b j) :
    b.Nodup :=
  List.pairwise_iff_getElem.2 fun i j hi hj hij => by
    rw [← cell_eq_getElem b i hi, ← cell_eq_getElem b j hj]
    exact h i j hij hj

/-- `N` different numbers below `N` are all of them. -/
theorem perm_range_of_nodup {l : List Nat} {N : Nat} (hnodup : l.Nodup) (hlt : ∀ x ∈ l, x < N) (hlen : l.length = N) :
    l.Perm (List.range N) :=
  (List.subperm_of_subset hnodup fun x hx => List.mem_range.2 (hlt x hx)).perm_of_length_le
    (by rw [List.length_range, hlen])

/-- An ascending map of the numbers below `N` to themselves fixes each of them. -/
theorem eq_self_of_ascending {N : Nat} {f : Nat → Nat} (hlt : ∀ r, r < N → f r < N)
    (hmono : ∀ r1 r2, r1 < r2 → r2 < N → f r1 < f r2) {r : Nat} (hr : r < N) : f r = r := by
  have hstrict : StrictMono fun i : Fin N => (⟨f i, hlt i i.2⟩ : Fin N) := fun i j hij => hmono i j hij j.2
  exact congrArg Fin.val (le_antisymm (hstrict.apply_le (x := ⟨r, hr⟩)) (hstrict.le_apply (x := ⟨r, hr⟩)))

/-! ## The order of the new PERM (R124, R127) -/

/-- PERM after SUP.GEN, as a function of PERM before it (R126). -/
def newPerm (p : Params) (perm : List Word) : List Word := permOverwrite p (sortedKeys p perm) perm

@[simp] theorem supGen_mem (s : State) : (supGen s).mem = { s.mem with
    perm := newPerm s.params s.mem.perm, l := supportFill s.params (newPerm s.params s.mem.perm) s.mem.l } := rfl

@[simp] theorem length_newPerm (p : Params) (perm : List Word) : (newPerm p perm).length = perm.length :=
  length_permOverwrite ..

/-- The order of indices by seed word, then by index (R127). -/
def SeedBefore (perm : List Word) (i j : Nat) : Prop :=
  (cell perm i).toNat < (cell perm j).toNat ∨ ((cell perm i).toNat = (cell perm j).toNat ∧ i < j)

theorem SeedBefore.ne {perm : List Word} {i j : Nat} (h : SeedBefore perm i j) : i ≠ j := by
  rintro rfl
  rcases h with hlt | ⟨-, hlt⟩
  · exact lt_irrefl _ hlt
  · exact lt_irrefl _ hlt

section order
variable {p : Params} (h13 : p.gfbits ≤ 13) {perm : List Word} (hl : perm.length = p.permLen)
include h13

/-- Every sorted key holds an index below PERM_LEN and that index's seed word. -/
theorem exists_sortedKey_eq {r : Nat} (hr : r < p.permLen) :
    ∃ i, i < p.permLen ∧ (cell (sortedKeys p perm) r).toNat = (cell perm i).toNat * 2 ^ 31 + i := by
  have hmem : cell (sortedKeys p perm) r ∈ compositeKeys p perm := by
    rw [cell_eq_getElem _ r (by rwa [length_sortedKeys]), ← (sortedKeys_perm p perm).mem_iff]
    exact List.getElem_mem _
  obtain ⟨i, hi, hkey⟩ := List.mem_map.1 hmem
  rw [List.mem_range] at hi
  exact ⟨i, hi, by rw [← hkey, toNat_compositeKey perm (lt_two_pow_of_lt_permLen h13 hi)]⟩

include hl

/-- An entry of the new PERM is the index its sorted key holds (R124). -/
theorem newPerm_entry {r : Nat} (hr : r < p.permLen) : (cell (newPerm p perm) r).toNat < p.permLen ∧
    (cell (sortedKeys p perm) r).toNat =
      (cell perm (cell (newPerm p perm) r).toNat).toNat * 2 ^ 31 + (cell (newPerm p perm) r).toNat := by
  obtain ⟨i, hi, hkey⟩ := exists_sortedKey_eq h13 (perm := perm) hr
  have hentry : (cell (newPerm p perm) r).toNat = i := by
    have hdvd : 2 ^ p.gfbits ∣ (cell perm i).toNat * 2 ^ 31 :=
      Dvd.dvd.mul_left (Nat.pow_dvd_pow 2 (by omega)) _
    rw [newPerm, toNat_cell_permOverwrite p h13 _ hl hr, hkey, Nat.add_mod, Nat.mod_eq_zero_of_dvd hdvd, Nat.zero_add,
      Nat.mod_mod]
    exact Nat.mod_eq_of_lt hi
  rw [hentry]
  exact ⟨hi, hkey⟩

/-- The new PERM lists the indices in seed order (R127): the sorted keys ascend, and a key orders as its seed word and
index do. -/
theorem seedBefore_newPerm {r1 r2 : Nat} (h12 : r1 < r2) (h2 : r2 < p.permLen) :
    SeedBefore perm (cell (newPerm p perm) r1).toNat (cell (newPerm p perm) r2).toNat := by
  obtain ⟨hlt1, hkey1⟩ := newPerm_entry h13 hl (h12.trans h2)
  obtain ⟨hlt2, hkey2⟩ := newPerm_entry h13 hl h2
  have hascend : (cell (sortedKeys p perm) r1).toNat < (cell (sortedKeys p perm) r2).toNat := by
    have hpair := List.pairwise_iff_getElem.1 (sortedKeys_map_toNat_pairwise_lt h13 perm) r1 r2
      (by simpa using h12.trans h2) (by simpa using h2) h12
    rwa [List.getElem_map, List.getElem_map, ← cell_eq_getElem, ← cell_eq_getElem] at hpair
  rw [hkey1, hkey2] at hascend
  have hlt1 := lt_two_pow_of_lt_permLen h13 hlt1
  have hlt2 := lt_two_pow_of_lt_permLen h13 hlt2
  unfold SeedBefore
  omega

theorem newPerm_ne {r1 r2 : Nat} (h12 : r1 < r2) (h2 : r2 < p.permLen) :
    (cell (newPerm p perm) r1).toNat ≠ (cell (newPerm p perm) r2).toNat :=
  (seedBefore_newPerm h13 hl h12 h2).ne

/-- The new PERM is a permutation of the indices (R127). -/
theorem newPerm_perm_range : ((newPerm p perm).map BitVec.toNat).Perm (List.range p.permLen) := by
  have hlen := (length_newPerm p perm).trans hl
  refine perm_range_of_nodup ?_ (fun x hx => ?_) (by rw [List.length_map, hlen])
  · refine List.Nodup.map (fun _ _ => BitVec.eq_of_toNat_eq) (nodup_of_cell fun i j hij hj heq => ?_)
    exact newPerm_ne h13 hl hij (hlen ▸ hj) (congrArg _ heq)
  · obtain ⟨w, hw, rfl⟩ := List.mem_map.1 hx
    exact forall_mem_iff_cell (P := fun w => w.toNat < p.permLen).2
      (fun r hr => (newPerm_entry h13 hl (hlen ▸ hr)).1) w hw

/-- Equal seed words leave the order of the indices alone, so they leave the identity (R127). -/
theorem newPerm_of_equal_seeds (hseed : ∀ i, i < p.permLen → cell perm i = cell perm 0) {r : Nat} (hr : r < p.permLen) :
    (cell (newPerm p perm) r).toNat = r := by
  refine eq_self_of_ascending (f := fun r => (cell (newPerm p perm) r).toNat)
    (fun r hr => (newPerm_entry h13 hl hr).1) (fun r1 r2 h12 h2 => ?_) hr
  have hbefore := seedBefore_newPerm h13 hl h12 h2
  rw [SeedBefore, hseed _ (newPerm_entry h13 hl (h12.trans h2)).1, hseed _ (newPerm_entry h13 hl h2).1] at hbefore
  omega

/-! ## A second SUP.GEN (R131) -/

/-- The entries of PERM in the order of a second SUP.GEN ascend, so they are `0, 1, 2, …`. -/
theorem newPerm_newPerm {r : Nat} (hr : r < p.permLen) :
    (cell (newPerm p perm) (cell (newPerm p (newPerm p perm)) r).toNat).toNat = r := by
  have hl' := (length_newPerm p perm).trans hl
  refine eq_self_of_ascending (f := fun r => (cell (newPerm p perm) (cell (newPerm p (newPerm p perm)) r).toNat).toNat)
    (fun r hr => (newPerm_entry h13 hl (newPerm_entry h13 hl' hr).1).1) (fun r1 r2 h12 h2 => ?_) hr
  have hlt1 := (newPerm_entry h13 hl' (h12.trans h2)).1
  rcases seedBefore_newPerm h13 hl' h12 h2 with hlt | ⟨heq, hlt⟩
  · exact hlt
  · exact absurd heq (newPerm_ne h13 hl hlt (newPerm_entry h13 hl' h2).1)

/-- A second SUP.GEN leaves the inverse permutation (R131). -/
theorem newPerm_newPerm_left {i : Nat} (hi : i < p.permLen) :
    (cell (newPerm p (newPerm p perm)) (cell (newPerm p perm) i).toNat).toNat = i := by
  have hl' := (length_newPerm p perm).trans hl
  have hlt := (newPerm_entry h13 hl hi).1
  have hback := newPerm_newPerm h13 hl hlt
  rcases lt_trichotomy (cell (newPerm p (newPerm p perm)) (cell (newPerm p perm) i).toNat).toNat i with hlo | heq | hhi
  · exact absurd hback (newPerm_ne h13 hl hlo hi)
  · exact heq
  · exact absurd hback.symm (newPerm_ne h13 hl hhi (newPerm_entry h13 hl' hlt).1)

end order

/-! ## The support (R125, R128) -/

section support
variable {s : State} (hs : s.Inv)
include hs

/-- What the invariant says of the buffers SUP.GEN works on (R10, R50). -/
theorem supGen_sizes : s.params.gfbits ≤ 13 ∧ s.mem.perm.length = s.params.permLen ∧
    s.mem.l.length = s.params.sysN ∧ s.params.sysN ≤ s.params.permLen := by
  obtain ⟨-, h13, -⟩ := Params.wellFormed_field hs.params
  obtain ⟨hsize, -⟩ := Params.wellFormed_sizes hs.params
  obtain ⟨-, -, hperm, hl, -⟩ := hs.memory
  exact ⟨h13, hperm, hl, hsize⟩

theorem cell_supGen_l {i : Nat} (hi : i < s.params.sysN) :
    cell (supGen s).mem.l i = gfBitrev s.params ((cell (supGen s).mem.perm i).setWidth 13) :=
  have ⟨_, _, hl, _⟩ := supGen_sizes hs
  cell_supportFill s.params _ hl hi

/-- The support is duplicate-free: gf_bitrev is one to one, and so is the permutation (R128). -/
theorem nodup_supGen_l : (supGen s).mem.l.Nodup := by
  obtain ⟨h13, hl, hlen, hsize⟩ := supGen_sizes hs
  have hnat {i : Nat} (hi : i < s.params.permLen) : ((cell (supGen s).mem.perm i).setWidth 13).toNat =
      (cell (supGen s).mem.perm i).toNat :=
    (BitVec.toNat_setWidth ..).trans <| Nat.mod_eq_of_lt <|
      (newPerm_entry h13 hl hi).1.trans_le (Nat.pow_le_pow_right two_pos h13)
  have hok {i : Nat} (hi : i < s.params.permLen) : elemOk s.params ((cell (supGen s).mem.perm i).setWidth 13) := by
    rw [elemOk, hnat hi]
    exact (newPerm_entry h13 hl hi).1
  refine nodup_of_cell fun i j hij hj heq => ?_
  have hj : j < s.params.sysN := by simpa [hlen] using hj
  have hjperm := hj.trans_le hsize
  rw [cell_supGen_l hs (hij.trans hj), cell_supGen_l hs hj, gfBitrev_inj h13 (hok (hij.trans hjperm)) (hok hjperm),
    ← BitVec.toNat_inj, hnat (hij.trans hjperm), hnat hjperm] at heq
  exact newPerm_ne h13 hl hij hjperm heq

end support

/-- Settles O39: the sorted keys ascend, and a key orders as its seed word and index. -/
theorem supGenGivesAPermutation : Obligations.SupGenGivesAPermutation := by
  intro s hs
  obtain ⟨h13, hl, -⟩ := supGen_sizes hs
  exact ⟨_, exec_supGen s, newPerm_perm_range h13 hl, fun _ _ => seedBefore_newPerm h13 hl,
    fun hseed _ => newPerm_of_equal_seeds h13 hl hseed⟩

/-- Settles O40: as many different elements as the field has are all of them. -/
theorem supportIsDuplicateFree : Obligations.SupportIsDuplicateFree := by
  intro s hs
  refine ⟨_, exec_supGen s, nodup_supGen_l hs, fun hfull => ?_⟩
  obtain ⟨-, -, -, hl, -, -, -, -, hok, -⟩ := (supGen_inv hs).memory
  refine perm_range_of_nodup ((nodup_supGen_l hs).map fun _ _ => BitVec.eq_of_toNat_eq) (fun x hx => ?_) ?_
  · obtain ⟨a, ha, rfl⟩ := List.mem_map.1 hx
    exact hok a ha
  · rw [List.length_map, hl]
    exact hfull

/-- Settles O41: sorting a permutation by its entries lists the positions of `0, 1, 2, …`. -/
theorem secondSupGenInvertsThePermutation : Obligations.SecondSupGenInvertsThePermutation := by
  intro s hs
  obtain ⟨h13, hl, -⟩ := supGen_sizes hs
  exact ⟨_, _, exec_supGen s, exec_supGen _, fun _ => newPerm_newPerm_left h13 hl,
    fun _ => cell_supGen_l (supGen_inv hs)⟩

end Sys2Proof.Machine
end

section
/-! SUPPORT. The built matrix (43_matrix_builder.md R162 to R168): the reciprocals during each layer, every byte and
bit of MAT, and the columns that are zero. -/

namespace Sys2Proof.Machine

/-! ## The layers (R162, R164) -/

section layers
variable {p : Params} (h : p.wellFormed = true) {l inv : List Elem} (hok : ∀ x ∈ inv, elemOk p x)
variable (hlok : ∀ x ∈ l, elemOk p x) (hinv : inv.length = p.sysN) (mat : List Byte)

include h hok hlok hinv in
/-- INV during layer `i` is `inv0[n] * L[n]^i` (R166). -/
theorem cell_buildLayers_inv (i : Nat) {n : Nat} (hn : n < p.sysN) :
    cell (buildLayers p l i (mat, inv)).2 n = gfMul p (cell inv n) (gfPow p (cell l n) i) := by
  obtain ⟨h1, -⟩ := Params.wellFormed_field h
  have hx := elemOk_cell hok n
  have hl := elemOk_cell hlok n
  induction i with
  | zero => exact (gfMul_one h hx).symm
  | succ i ih =>
    rw [buildLayers_succ, cell_advance p l (by rw [length_buildLayers_inv, hinv]) hn, ih,
      gfMul_assoc h hx (elemOk_gfPow p h1 _ i) hl, gfPow]

/-- MAT after the first `n` layers: row `i * GFBITS + k` holds bit `k` of INV during layer `i` (R162). -/
theorem matGet_buildLayers (h1 : 1 ≤ p.gfbits) (hmat : mat.length = p.pkNrows * p.rowBytes) {n : Nat} (hn : n ≤ p.sysT)
    (r : Nat) {c : Nat} (hc : c < p.rowBytes) : matGet p (buildLayers p l n (mat, inv)).1 r c =
      if r < n * p.gfbits then packByte (buildLayers p l (r / p.gfbits) (mat, inv)).2 (8 * c) (r % p.gfbits)
      else matGet p mat r c := by
  induction n with
  | zero => simp
  | succ n ih =>
    have hrows : (n + 1) * p.gfbits ≤ p.pkNrows := by
      rw [Params.pkNrows, Nat.mul_comm p.gfbits]; exact Nat.mul_le_mul_right _ hn
    have hsplit : (n + 1) * p.gfbits = n * p.gfbits + p.gfbits := Nat.succ_mul ..
    rw [buildLayers_succ, matGet_packLayer p _ (by rw [length_buildLayers_mat, hmat]) hrows r hc, ih (by omega)]
    rcases Nat.lt_or_ge r (n * p.gfbits) with hlt | hge
    · rw [if_neg (by omega), if_pos hlt, if_pos (by omega)]
    · by_cases hlast : r < (n + 1) * p.gfbits
      · have hdiv : r / p.gfbits = n := Nat.div_eq_of_lt_le hge hlast
        have hmod : r - n * p.gfbits = r % p.gfbits := by
          rw [Nat.mod_eq_sub_div_mul, hdiv]
        rw [if_pos ⟨hge, hlast⟩, if_pos hlast, hdiv, hmod]
      · rw [if_neg (by omega), if_neg (by omega), if_neg hlast]

end layers

/-! ## MAT.BUILD (R165, R166) -/

section matBuild
variable {s : State} (hs : s.Inv)
include hs

theorem cell_matBuild_layer (i : Nat) {n : Nat} (hn : n < s.params.sysN) :
    cell (buildLayers s.params s.mem.l i (s.mem.mat, s.mem.inv)).2 n =
      gfMul s.params (cell s.mem.inv n) (gfPow s.params (cell s.mem.l n) i) := by
  obtain ⟨-, -, -, -, hinv, -, -, -, hlok, hok⟩ := hs.memory
  exact cell_buildLayers_inv hs.params hok hlok hinv _ i hn

theorem cell_matBuild_inv {n : Nat} (hn : n < s.params.sysN) : cell (matBuild s).mem.inv n =
    gfMul s.params (cell s.mem.inv n) (gfPow s.params (cell s.mem.l n) s.params.sysT) :=
  cell_matBuild_layer hs s.params.sysT hn

/-- Every bit of the built matrix, by its row and column (R166). -/
theorem matBit_matBuild {r n : Nat} (hr : r < s.params.pkNrows) (hn : n < s.params.sysN) :
    matBit s.params (matBuild s).mem.mat r n =
      (gfMul s.params (cell s.mem.inv n) (gfPow s.params (cell s.mem.l n) (r / s.params.gfbits))).getLsbD
        (r % s.params.gfbits) := by
  obtain ⟨-, -, -, -, -, hmat, -⟩ := hs.memory
  obtain ⟨h1, -⟩ := Params.wellFormed_field hs.params
  have hbyte := matGet_buildLayers (l := s.mem.l) (inv := s.mem.inv) s.mem.mat h1 hmat le_rfl r
    (div_eight_lt_rowBytes hs.params hn)
  rw [if_pos (by rwa [Nat.mul_comm])] at hbyte
  rw [matBit]
  change (matGet s.params (buildLayers s.params s.mem.l s.params.sysT (s.mem.mat, s.mem.inv)).1 r (n / 8)).getLsbD _ = _
  rw [hbyte, getLsbD_packByte _ _ _ (Nat.mod_lt n (by decide)), Nat.div_add_mod, cell_matBuild_layer hs _ hn]

/-- A zero reciprocal gives a zero column (R168). -/
theorem matBit_matBuild_of_zero {n : Nat} (hn : n < s.params.sysN) (hzero : cell s.mem.inv n = 0) {r : Nat}
    (hr : r < s.params.pkNrows) : matBit s.params (matBuild s).mem.mat r n = false := by
  obtain ⟨h1, -⟩ := Params.wellFormed_field hs.params
  rw [matBit_matBuild hs hr hn, hzero, zero_gfMul hs.params (elemOk_gfPow s.params h1 _ _)]
  exact BitVec.getLsbD_zero

/-- `inv0[n] * L[n]^i` in a layer past the first, at the support value 0 (R168). -/
theorem gfMul_inv_gfPow_zero (n : Nat) {i : Nat} (hi : 0 < i) :
    gfMul s.params (cell s.mem.inv n) (gfPow s.params 0 i) = 0 := by
  obtain ⟨-, -, -, -, -, -, -, -, -, hok⟩ := hs.memory
  obtain ⟨j, rfl⟩ := Nat.exists_eq_add_of_lt hi
  rw [Nat.zero_add, gfPow_zero_succ hs.params, gfMul_zero hs.params (elemOk_cell hok n)]

end matBuild

/-- Settles O42: packing a layer writes its own rows only, and advancing multiplies by L. -/
theorem matBuildClosedForm : Obligations.MatBuildClosedForm := by
  intro s hs
  obtain ⟨-, -, -, -, hinv, hmat, -⟩ := hs.memory
  refine ⟨_, _, exec_matBuild s, (length_buildLayers_mat ..).trans hmat, (length_buildLayers_inv ..).trans hinv,
    fun i k n hi hk hn => ?_, fun i n _ hn => cell_matBuild_layer hs i hn, fun n hn => cell_matBuild_inv hs hn⟩
  have hr : i * s.params.gfbits + k < s.params.pkNrows := by
    rw [Params.pkNrows, Nat.mul_comm s.params.gfbits]; exact rowMajor_lt hi hk
  have hpos : 0 < s.params.gfbits := Nat.zero_lt_of_lt hk
  have hbit := matBit_matBuild hs hr hn
  rwa [Nat.mul_comm i, Nat.mul_add_div hpos, Nat.mul_add_mod, Nat.div_eq_of_lt hk, Nat.mod_eq_of_lt hk, Nat.add_zero,
    Nat.mul_comm] at hbit

/-- Settles O43: a product with 0 is 0, and every power of 0 but the first is 0. -/
theorem zeroColumnsOfTheBuiltMatrix : Obligations.ZeroColumnsOfTheBuiltMatrix := by
  intro s n hs ht hn
  obtain ⟨h1, -⟩ := Params.wellFormed_field hs.params
  obtain ⟨-, -, -, -, -, -, -, -, -, hok⟩ := hs.memory
  refine ⟨_, exec_matBuild s, fun hzero r => matBit_matBuild_of_zero hs hn hzero, fun hl => ⟨?_, fun k hk => ?_,
    fun r hrg hr => ?_⟩⟩
  · rw [cell_matBuild_inv hs hn, hl, gfMul_inv_gfPow_zero hs n ht]
  · have hr : k < s.params.pkNrows := hk.trans_le (Nat.le_mul_of_pos_right _ ht)
    rw [matBit_matBuild hs hr hn, Nat.div_eq_of_lt hk, Nat.mod_eq_of_lt hk, gfPow,
      gfMul_one hs.params (elemOk_cell hok n)]
  · rw [matBit_matBuild hs hr hn, hl, gfMul_inv_gfPow_zero hs n (Nat.div_pos hrg h1)]
    exact BitVec.getLsbD_zero

/-! ## Roots in the support (42_goppa_evaluator.md R147) -/

/-- A root gives the reciprocal 0 (R147). -/
theorem cell_rootEval_of_root {s : State} (hs : s.Inv) {i : Nat} (hi : i < s.params.sysN)
    (hroot : gfEval s.params s.mem.g (cell s.mem.l i) = 0) : cell (rootEval s).mem.inv i = 0 := by
  obtain ⟨-, -, -, -, hinv, -⟩ := hs.memory
  exact (cell_reciprocals s.params s.mem.g s.mem.l hinv hi).trans (by rw [hroot, gfInv_zero])

/-- Settles O36: the reciprocal of a root is 0, and a zero reciprocal gives a zero column. -/
theorem rootGivesAZeroColumn : Obligations.RootGivesAZeroColumn := by
  intro s i hs hi hroot
  have hzero := cell_rootEval_of_root hs hi hroot
  exact ⟨_, _, exec_rootEval s, rfl, hzero, exec_matBuild _,
    fun _ => matBit_matBuild_of_zero (rootEval_inv hs) hi hzero⟩

end Sys2Proof.Machine
end

section
/-! SUPPORT. The reduction as linear algebra over GF(2) (44_systematic_reducer.md R184 to R199): every pass multiplies
the matrix by an invertible one from the left, so a reduction succeeds exactly on an invertible leading block. -/

namespace Sys2Proof.Machine

open Matrix

/-! ## Pass 1 and the check (R184, R186) -/

section pass1
variable {p : Params} (h : p.wellFormed = true) {mat : List Byte} (hl : mat.length = p.pkNrows * p.rowBytes)
variable {row : Nat} (hrow : row < p.pkNrows)
include h hl hrow

/-- A pivot bit still 0 after pass 1 means a column of zeros from the pivot row down, and the other way round. -/
theorem pivot_after_pass1_eq_false_iff : matBit p (pass1 p row mat) row row = false ↔
    ∀ k, row ≤ k → k < p.pkNrows → matBit p mat k row = false := by
  refine ⟨fun hbit => (pass1_of_pivot_eq_false h hl hrow hbit).2, fun hcol => ?_⟩
  rw [pass1_of_zero_column hl hrow hcol]
  exact hcol row le_rfl hrow

theorem pivot_after_pass1_eq_true_iff : matBit p (pass1 p row mat) row row = true ↔
    ∃ k, row ≤ k ∧ k < p.pkNrows ∧ matBit p mat k row = true := by
  rw [← Bool.not_eq_false, pivot_after_pass1_eq_false_iff h hl hrow]
  push Not
  simp only [ne_eq, Bool.not_eq_false]

omit h in
/-- Pass 1 only reads the rows below the pivot row. -/
theorem matGet_pass1_of_ne {r c : Nat} (hr : r ≠ row) (hc : c < p.rowBytes) :
    matGet p (pass1 p row mat) r c = matGet p mat r c := by
  refine (loopUp_induct (fun _ m => m.length = p.pkNrows * p.rowBytes ∧ matGet p m r c = matGet p mat r c) _
    ⟨hl, rfl⟩ fun t _ m ⟨hlen, hget⟩ => ⟨(length_pass1Step ..).trans hlen, ?_⟩).2
  rw [pass1Step_eq_xorRow, matGet_xorRow_ofBool hlen hrow _ _ hc, if_neg fun h => hr h.1, hget]

theorem pivotStep_eq_nonSystematic_iff : (∀ k, row ≤ k → k < p.pkNrows → matBit p mat k row = false) ↔
    pivotStep p row mat = .nonSystematic mat :=
  ⟨pivotStep_of_zero_column hl hrow, fun hstep => (pivotStep_of_nonSystematic h hl hrow hstep).2⟩

theorem pivotStep_eq_done_iff : (∃ k, row ≤ k ∧ k < p.pkNrows ∧ matBit p mat k row = true) ↔
    ∃ m, pivotStep p row mat = .done m := by
  rw [← pivot_after_pass1_eq_true_iff h hl hrow, ← pivotBit_eq_one_iff]
  rcases pivotStep_cases p row mat with ⟨hpivot, hstep⟩ | ⟨hpivot, hstep⟩
  · simp [hpivot, hstep]
  · simp [hpivot, hstep]

end pass1

/-- Settles O45: a step with differing pivot bits makes the pivot 1, after which the steps' bits agree or keep it so. -/
theorem pass1GathersThePivot : Obligations.Pass1GathersThePivot := by
  intro p mat row h hl hrow
  refine ⟨fun k _ _ => ⟨fun hne => ?_, pass1Step_of_eq hl hrow⟩, pivot_after_pass1_eq_true_iff h hl hrow,
    fun r c hr _ => matGet_pass1_of_ne hl hrow hr⟩
  have hbit {n : Nat} (hn : n / 8 < p.rowBytes) :
      matBit p (pass1Step p row k mat) row n = (matBit p mat row n ^^ matBit p mat k n) := by
    rw [matBit_pass1Step hl hrow k row hn, if_pos ⟨rfl, hne⟩]
  refine ⟨?_, fun n hn => hbit (div_eight_lt_rowBytes h hn)⟩
  rw [hbit (pivot_div_eight_lt_rowBytes h hrow)]
  simpa using hne

/-- Settles O46: the check reads the bit pass 1 gathered, and on a zero column pass 1 added nothing. -/
theorem pivotCheckFailsOnAZeroColumn : Obligations.PivotCheckFailsOnAZeroColumn := fun _ _ _ h hl hrow =>
  ⟨pivotStep_eq_nonSystematic_iff h hl hrow, pivotStep_eq_done_iff h hl hrow⟩

/-- Settles O48: the loop invariant after `row + 1` completed steps from row 0 on. -/
theorem earlierColumnsStayUnitColumns : Obligations.EarlierColumnsStayUnitColumns := by
  intro p mat m row h hl hrow hdone n r hn hr
  have hcols := (unitColumns_zero p mat).after_reduceFrom h hl (by omega) hdone
  exact hcols n r (by omega) hr

/-! ## Row operations as matrices over GF(2) (R193) -/

theorem bitBlock_apply (p : Params) (mat : List Byte) (cols : Nat) (r : Fin p.pkNrows) (n : Fin cols) :
    bitBlock p mat cols r n = if matBit p mat r n then 1 else 0 := rfl

/-- `m` is `mat` multiplied by an invertible matrix from the left, in every block of columns of the row. -/
def RowEquiv (p : Params) (m mat : List Byte) : Prop :=
  ∃ U : Matrix (Fin p.pkNrows) (Fin p.pkNrows) (ZMod 2), IsUnit U ∧
    ∀ cols, cols ≤ p.sysN → bitBlock p m cols = U * bitBlock p mat cols

theorem RowEquiv.refl (p : Params) (mat : List Byte) : RowEquiv p mat mat :=
  ⟨1, isUnit_one, fun _ _ => (Matrix.one_mul _).symm⟩

theorem RowEquiv.trans {p : Params} {m m' mat : List Byte} (h' : RowEquiv p m' m) (h : RowEquiv p m mat) :
    RowEquiv p m' mat := by
  obtain ⟨U', hU', heq'⟩ := h'
  obtain ⟨U, hU, heq⟩ := h
  exact ⟨U' * U, hU'.mul hU, fun cols hcols => by rw [heq' cols hcols, heq cols hcols, Matrix.mul_assoc]⟩

section rowEquiv
variable {p : Params} (h : p.wellFormed = true) {mat : List Byte} (hl : mat.length = p.pkNrows * p.rowBytes)
include h hl

/-- Adding row `x` to row `y` under a mask is a transvection (R182). -/
theorem bitBlock_xorRow (x y : Fin p.pkNrows) (b : Bool) {cols : Nat} (hcols : cols ≤ p.sysN) :
    bitBlock p (xorRow p mat x y (BitVec.ofBool b)) cols =
      transvection y x (if b then (1 : ZMod 2) else 0) * bitBlock p mat cols := by
  have hbit (r : Fin p.pkNrows) (n : Fin cols) := matBit_xorRow p hl (x := x) (BitVec.ofBool b) y.2 r
    (div_eight_lt_rowBytes h (n.2.trans_le hcols))
  ext r n
  rw [bitBlock_apply, hbit]
  by_cases hr : r = y
  · subst hr
    rw [transvection_mul_apply_same, if_pos rfl, bitBlock_apply, bitBlock_apply]
    cases b <;> cases matBit p mat r n <;> cases matBit p mat x n <;> decide
  · rw [transvection_mul_apply_of_ne _ _ _ _ hr, if_neg fun heq => hr (Fin.ext heq), bitBlock_apply]

theorem rowEquiv_xorRow {x y : Nat} (hx : x < p.pkNrows) (hy : y < p.pkNrows) (hxy : x ≠ y) (b : Bool) :
    RowEquiv p (xorRow p mat x y (BitVec.ofBool b)) mat := by
  have hne : (⟨y, hy⟩ : Fin p.pkNrows) ≠ ⟨x, hx⟩ := fun heq => hxy (Fin.val_eq_of_eq heq).symm
  refine ⟨_, ?_, fun cols => bitBlock_xorRow h hl ⟨x, hx⟩ ⟨y, hy⟩ b⟩
  rw [isUnit_iff_isUnit_det, det_transvection_of_ne _ _ hne]
  exact isUnit_one

variable {row : Nat} (hrow : row < p.pkNrows)
include hrow

theorem rowEquiv_pass1 : RowEquiv p (pass1 p row mat) mat := by
  refine (loopUp_induct (fun _ m => m.length = p.pkNrows * p.rowBytes ∧ RowEquiv p m mat) _ ⟨hl, .refl p mat⟩
    fun t ht m ⟨hlen, hm⟩ => ⟨(length_pass1Step ..).trans hlen, ?_⟩).2
  rw [pass1Step_eq_xorRow]
  exact (rowEquiv_xorRow h hlen (by omega) hrow (by omega) _).trans hm

theorem rowEquiv_pass3 : RowEquiv p (pass3 p row mat) mat := by
  refine (loopUp_induct (fun _ m => m.length = p.pkNrows * p.rowBytes ∧ RowEquiv p m mat) _ ⟨hl, .refl p mat⟩
    fun k hk m ⟨hlen, hm⟩ => ?_).2
  by_cases hkrow : k = row
  · rw [if_pos hkrow]
    exact ⟨hlen, hm⟩
  · rw [if_neg hkrow]
    refine ⟨(length_pass3Step ..).trans hlen, ?_⟩
    rw [pass3Step_eq_xorRow]
    exact (rowEquiv_xorRow h hlen hrow hk (Ne.symm hkrow) _).trans hm

theorem rowEquiv_pivotStep : RowEquiv p (pivotStep p row mat).mat mat := by
  have hpass1 := rowEquiv_pass1 h hl hrow
  rcases pivotStep_cases p row mat with ⟨-, hstep⟩ | ⟨-, hstep⟩
  · rw [hstep]; exact hpass1
  · rw [hstep]; exact (rowEquiv_pass3 h ((length_pass1 ..).trans hl) hrow).trans hpass1

end rowEquiv

theorem rowEquiv_reduceFrom {p : Params} (h : p.wellFormed = true) {n row : Nat} {mat : List Byte}
    (hl : mat.length = p.pkNrows * p.rowBytes) (hn : row + n ≤ p.pkNrows) :
    RowEquiv p (reduceFrom p n row mat).mat mat := by
  induction n generalizing row mat with
  | zero => exact .refl p mat
  | succ n ih =>
    have hstep := rowEquiv_pivotStep h hl (row := row) (by omega)
    cases hcase : pivotStep p row mat with
    | done m =>
      rw [hcase] at hstep
      rw [reduceFrom_succ_of_done hcase]
      exact (ih ((length_of_pivotStep_eq_done hcase).trans hl) (by omega)).trans hstep
    | nonSystematic m =>
      rw [hcase] at hstep
      rw [reduceFrom_succ_of_nonSystematic hcase]
      exact hstep

/-! ## The leading block (R193) -/

theorem RowEquiv.isUnit_iff {p : Params} (h : p.wellFormed = true) {m mat : List Byte} (hm : RowEquiv p m mat) :
    IsUnit (bitBlock p m p.pkNrows) ↔ IsUnit (bitBlock p mat p.pkNrows) := by
  obtain ⟨-, -, -, hle⟩ := Params.wellFormed_sizes h
  obtain ⟨U, hU, heq⟩ := hm
  rw [heq _ hle, hU.mul_left_iff]

theorem UnitColumns.bitBlock_eq_one {p : Params} {m : List Byte} (hm : UnitColumns p m p.pkNrows) :
    bitBlock p m p.pkNrows = 1 := by
  ext r n
  rw [bitBlock_apply, hm n r n.2 r.2, one_apply]
  simp [Fin.ext_iff]

/-- A block whose columns before `f` are unit columns and whose column `f` is 0 from row `f` down is singular: it maps
that column and the unit vector of `f` both to that column. -/
theorem UnitColumns.not_isUnit {p : Params} {m : List Byte} {f : Nat} (hf : f < p.pkNrows) (hm : UnitColumns p m f)
    (hcol : ∀ k, f ≤ k → k < p.pkNrows → matBit p m k f = false) : ¬ IsUnit (bitBlock p m p.pkNrows) := by
  intro hunit
  have hzero {c : Fin p.pkNrows} (hc : f ≤ c) : bitBlock p m p.pkNrows c ⟨f, hf⟩ = 0 := by
    rw [bitBlock_apply, hcol c hc c.2]; rfl
  have hfix : bitBlock p m p.pkNrows *ᵥ (bitBlock p m p.pkNrows).col ⟨f, hf⟩ =
      (bitBlock p m p.pkNrows).col ⟨f, hf⟩ := by
    ext r
    calc (bitBlock p m p.pkNrows *ᵥ (bitBlock p m p.pkNrows).col ⟨f, hf⟩) r
        = ((1 : Matrix _ _ (ZMod 2)) *ᵥ (bitBlock p m p.pkNrows).col ⟨f, hf⟩) r := by
          rw [mulVec, mulVec, dotProduct, dotProduct]
          refine Finset.sum_congr rfl fun c _ => ?_
          rcases Nat.lt_or_ge c f with hlt | hge
          · rw [bitBlock_apply, hm c r hlt r.2, one_apply]
            simp [Fin.ext_iff]
          · simp only [col_apply, hzero hge, mul_zero]
      _ = (bitBlock p m p.pkNrows).col ⟨f, hf⟩ r := by rw [one_mulVec]
  have hsame := mulVec_injective_iff_isUnit.2 hunit (hfix.trans (mulVec_single_one _ _).symm)
  have hat := congrFun hsame ⟨f, hf⟩
  rw [col_apply, hzero le_rfl, Pi.single_eq_same] at hat
  exact zero_ne_one hat

section reduce
variable {p : Params} (h : p.wellFormed = true) {mat : List Byte} (hl : mat.length = p.pkNrows * p.rowBytes)
include h hl

/-- A completed reduction leaves the identity in front, and its row operations are the inverse of the leading block. -/
theorem bitBlock_of_reduce_eq_done {m : List Byte} (hdone : reduce p mat = .done m) :
    IsUnit (bitBlock p mat p.pkNrows) ∧
      bitBlock p mat p.pkNrows * bitBlock p m p.sysN = bitBlock p mat p.sysN := by
  obtain ⟨-, -, -, hle⟩ := Params.wellFormed_sizes h
  have hcols := (unitColumns_zero p mat).after_reduceFrom h hl (Nat.zero_add _).le hdone
  rw [Nat.zero_add] at hcols
  have hequiv : RowEquiv p m mat := by
    have hrows := rowEquiv_reduceFrom h hl (Nat.zero_add p.pkNrows).le
    rwa [show reduceFrom p p.pkNrows 0 mat = .done m from hdone] at hrows
  refine ⟨(hequiv.isUnit_iff h).1 (hcols.bitBlock_eq_one ▸ isUnit_one), ?_⟩
  obtain ⟨U, -, heq⟩ := hequiv
  have hinverse : bitBlock p mat p.pkNrows * U = 1 := by
    rw [mul_eq_one_comm, ← heq _ hle, hcols.bitBlock_eq_one]
  rw [heq _ le_rfl, ← Matrix.mul_assoc, hinverse, Matrix.one_mul]

/-- A failed reduction met a singular leading block. -/
theorem not_isUnit_of_reduce_eq_nonSystematic {m : List Byte} (hfail : reduce p mat = .nonSystematic m) :
    ¬ IsUnit (bitBlock p mat p.pkNrows) := by
  obtain ⟨f, hf, hdone, hcol⟩ := reduceFrom_of_nonSystematic h hl (Nat.zero_add _).le hfail
  have hcols := (unitColumns_zero p mat).after_reduceFrom h hl (by omega) hdone
  rw [Nat.zero_add] at hcol hcols
  have hequiv := rowEquiv_reduceFrom h hl (row := 0) (n := f) (by omega)
  rw [hdone] at hequiv
  rw [← hequiv.isUnit_iff h]
  exact hcols.not_isUnit hf hcol

end reduce

/-! ## RED.RUN (R190 to R199) -/

/-- Both ends of RED.RUN, by the leading block of MAT (R193). -/
theorem redRun_cases_isUnit {s : State} (hs : s.Inv) :
    ((redRun s).status = 0x00000000#32 ∧ IsUnit (bitBlock s.params s.mem.mat s.params.pkNrows) ∧
        bitBlock s.params s.mem.mat s.params.pkNrows * bitBlock s.params (redRun s).mem.mat s.params.sysN =
          bitBlock s.params s.mem.mat s.params.sysN) ∨
      ((redRun s).status = 0xFFFFFFFF#32 ∧ ¬ IsUnit (bitBlock s.params s.mem.mat s.params.pkNrows)) := by
  obtain ⟨-, -, -, -, -, hmat, -⟩ := hs.memory
  rcases redRun_cases s with ⟨m, hdone, hrun⟩ | ⟨m, hfail, hrun⟩
  · left
    rw [hrun, setFail_status, sext32_false]
    exact ⟨rfl, bitBlock_of_reduce_eq_done hs.params hmat hdone⟩
  · right
    rw [hrun, raiseNonSystematic_status]
    exact ⟨rfl, not_isUnit_of_reduce_eq_nonSystematic hs.params hmat hfail⟩

/-- Settles O50: the row operations of a completed reduction are the inverse of the leading block; a failed one met a
column that depends on those before it. -/
theorem reductionSucceedsIffInvertible : Obligations.ReductionSucceedsIffInvertible := by
  intro s hs
  refine ⟨_, exec_redRun s, ?_⟩
  rcases redRun_cases_isUnit hs with ⟨hstatus, hunit, hmul⟩ | ⟨hstatus, hsingular⟩
  · rw [hstatus]
    exact ⟨iff_of_true rfl hunit, iff_of_false (by decide) (not_not_intro hunit), fun _ => hmul⟩
  · rw [hstatus]
    exact ⟨iff_of_false (by decide) hsingular, iff_of_true rfl hsingular, fun hzero => absurd hzero (by decide)⟩

/-- A zero column in the leading block makes RED.RUN fail: the block has determinant 0. -/
theorem redRun_status_of_zero_column {s : State} (hs : s.Inv) {i : Nat} (hi : i < s.params.pkNrows)
    (hcol : ∀ r, r < s.params.pkNrows → matBit s.params s.mem.mat r i = false) :
    (redRun s).status = 0xFFFFFFFF#32 := by
  rcases redRun_cases_isUnit hs with ⟨-, hunit, -⟩ | ⟨hstatus, -⟩
  · have hdet : (bitBlock s.params s.mem.mat s.params.pkNrows).det = 0 :=
      det_eq_zero_of_column_eq_zero ⟨i, hi⟩ fun r => by rw [bitBlock_apply, hcol r r.2]; rfl
    rw [isUnit_iff_isUnit_det, hdet] at hunit
    exact absurd hunit not_isUnit_zero
  · exact hstatus

/-- Settles O37: the root's column of the built matrix is zero; the witness has a root at position 14 of T16, whose
PK_NROWS is 8 (V33). -/
theorem rootBelowTheRowCountFails : Obligations.RootBelowTheRowCountFails := by
  refine ⟨fun s i hs hi hroot => ?_, ?_⟩
  · obtain ⟨-, -, -, hle⟩ := Params.wellFormed_sizes hs.params
    have hi' := hi.trans_le hle
    have hzero := cell_rootEval_of_root hs hi' hroot
    exact ⟨_, _, _, exec_rootEval s, exec_matBuild _, exec_redRun _,
      redRun_status_of_zero_column (matBuild_inv (rootEval_inv hs)) hi fun r =>
        matBit_matBuild_of_zero (rootEval_inv hs) hi' hzero⟩
  · obtain ⟨hroot, hstatus⟩ := Tests.test_root_above_row_count
    have hinv : (Tests.withG [0x0, 0x1, 0x1]).Inv := inv_of_check (by decide +kernel)
    exact ⟨Tests.withG [0x0, 0x1, 0x1], 14, hinv, by decide, by decide, hroot, _, _, _, exec_rootEval _,
      exec_matBuild _, exec_redRun _, hstatus⟩

/-! ## A systematic matrix (R199) -/

/-- Two matrices of one size with the same bits are the same matrix. -/
theorem ext_matBit {p : Params} (h : p.wellFormed = true) {a b : List Byte} (ha : a.length = p.pkNrows * p.rowBytes)
    (hb : b.length = p.pkNrows * p.rowBytes)
    (hbits : ∀ r n, r < p.pkNrows → n < p.sysN → matBit p a r n = matBit p b r n) : a = b := by
  obtain ⟨-, h8, -⟩ := Params.wellFormed_sizes h
  refine ext_matGet p ha hb fun r c hr hc => BitVec.eq_of_getLsbD_eq fun i hi => ?_
  rw [Params.rowBytes] at hc
  rw [getLsbD_matGet p a r c hi, getLsbD_matGet p b r c hi, hbits r _ hr (by omega)]

theorem bitBlock_inj {p : Params} (h : p.wellFormed = true) {a b : List Byte} (ha : a.length = p.pkNrows * p.rowBytes)
    (hb : b.length = p.pkNrows * p.rowBytes) (hblock : bitBlock p a p.sysN = bitBlock p b p.sysN) : a = b := by
  refine ext_matBit h ha hb fun r n hr hn => ?_
  have hentry := congrFun (congrFun hblock ⟨r, hr⟩) ⟨n, hn⟩
  rw [bitBlock_apply, bitBlock_apply] at hentry
  cases hbit : matBit p a r n <;> cases hbit' : matBit p b r n <;> simp [hbit, hbit'] at hentry ⊢

/-- Systematic form bit by bit: the leading columns are unit columns (R191). -/
theorem unitColumns_of_systematic {p : Params} (h : p.wellFormed = true) {mat : List Byte} (hm : systematic p mat) :
    UnitColumns p mat p.pkNrows := by
  intro c r hc hr
  have hc8 : c % 8 < 8 := Nat.mod_lt c (by decide)
  obtain ⟨-, -, h8, -⟩ := Params.wellFormed_sizes h
  rw [matBit, hm r (c / 8) hr (by omega), getLsbD_identityByte r _ hc8, Nat.div_add_mod]

/-- Settles O52: the leading block is the identity, so the reduction succeeds, and it divides by the identity. -/
theorem reductionKeepsSystematicForm : Obligations.ReductionKeepsSystematicForm := by
  intro s hs hsys
  have hone := (unitColumns_of_systematic hs.params hsys).bitBlock_eq_one
  obtain ⟨-, -, -, -, -, hmat, -⟩ := hs.memory
  obtain ⟨-, -, -, -, -, hmat', -⟩ := (redRun_inv hs).memory
  rw [redRun_params] at hmat'
  rcases redRun_cases_isUnit hs with ⟨hstatus, -, hmul⟩ | ⟨-, hsingular⟩
  · rw [hone, Matrix.one_mul] at hmul
    have hkeep : (redRun s).mem.mat = s.mem.mat := bitBlock_inj hs.params hmat' hmat hmul
    have hrun {t : State} (ht : exec .redRun s = .next t) : redRun s = t :=
      Host.Outcome.next.inj ((exec_redRun s).symm.trans ht)
    rcases redRunEndsInOneOfTwoWays s with ⟨m, -, hdone⟩ | ⟨m, -, hfail⟩
    · have hm : m = s.mem.mat := by rw [← hkeep, hrun hdone]
      rw [hdone, hm]
    · rw [hrun hfail] at hstatus
      exact absurd (show 0xFFFFFFFF#32 = 0x00000000#32 from hstatus) (by decide)
  · exact absurd (hone ▸ isUnit_one) hsingular

end Sys2Proof.Machine
end

section
/-! SUPPORT. The bit-level reducer (44_systematic_reducer.md R198): the byte reducer's passes, seen on MAT's bytes
opened up, are the bit-level passes. -/

namespace Sys2Proof.Machine

/-- A loop on one representation and its counterpart on another stay in step, turn by turn, as long as `P` holds. -/
theorem loopUp_map {σ τ : Type} {f : Nat → σ → σ} {g : Nat → τ → τ} (φ : σ → τ) (P : σ → Prop) {s : σ} (n : Nat)
    (start : P s) (turn : ∀ i, i < n → ∀ x, P x → P (f i x) ∧ g i (φ x) = φ (f i x)) :
    loopUp n g (φ s) = φ (loopUp n f s) := by
  have hP : ∀ k, k ≤ n → P (loopUp k f s) := fun k hk =>
    loopUp_induct (fun _ x => P x) k start fun i hi x hx => (turn i (hi.trans_le hk) x hx).1
  induction n with
  | zero => rfl
  | succ n ih =>
    rw [loopUp_succ, loopUp_succ,
      ih (fun i hi => turn i (Nat.lt_succ_of_lt hi)) fun k hk => hP k (Nat.le_succ_of_le hk)]
    exact (turn n (Nat.lt_succ_self n) _ (hP n (Nat.le_succ n))).2

/-! ## Rows of bits -/

section rows
variable {p : Params} {mat : List Byte}

theorem getD_bitRows {r : Nat} (hr : r < p.pkNrows) :
    (bitRows p mat).getD r [] = (List.range p.sysN).map (matBit p mat r) := by
  simp [bitRows, hr]

theorem bitAt_bitRows {r n : Nat} (hr : r < p.pkNrows) (hn : n < p.sysN) :
    bitAt (bitRows p mat) r n = matBit p mat r n := by
  rw [bitAt, getD_bitRows hr]
  simp [hn]

theorem matBit_xorRow_of_lt (h : p.wellFormed = true) (hl : mat.length = p.pkNrows * p.rowBytes) (x : Nat) {y : Nat}
    (hy : y < p.pkNrows) (r : Nat) {n : Nat} (hn : n < p.sysN) : matBit p (xorRow p mat x y 1#1) r n =
      if r = y then (matBit p mat y n ^^ matBit p mat x n) else matBit p mat r n := by
  rw [matBit_xorRow p hl _ hy r (div_eight_lt_rowBytes h hn)]
  simp

/-- Adding rows of bits is adding rows of bytes under a mask of ones (R198). -/
theorem bitAddRow_bitRows (h : p.wellFormed = true) (hl : mat.length = p.pkNrows * p.rowBytes) {x y : Nat}
    (hx : x < p.pkNrows) (hy : y < p.pkNrows) :
    bitAddRow (bitRows p mat) x y = bitRows p (xorRow p mat x y 1#1) := by
  have hbit (r : Nat) {n : Nat} (hn : n < p.sysN) := matBit_xorRow_of_lt h hl x hy r hn
  unfold bitAddRow
  rw [getD_bitRows hx, getD_bitRows hy]
  refine List.ext_getElem (by simp [bitRows]) fun r hr _ => ?_
  rw [List.getElem_set]
  by_cases hry : y = r
  · subst hry
    refine List.ext_getElem (by simp [bitRows]) fun n hn _ => ?_
    have hn' : n < p.sysN := by simpa using hn
    simp [bitRows, hbit y hn']
  · refine List.ext_getElem (by simp [bitRows, hry]) fun n hn _ => ?_
    have hn' : n < p.sysN := by simpa [bitRows, hry] using hn
    simp [bitRows, hry, hbit r hn', Ne.symm hry]

end rows

/-! ## The passes and the reduction -/

section passes
variable {p : Params} (h : p.wellFormed = true)
include h

/-- A masked row XOR seen on the bits: a row addition where the mask is set, else nothing. -/
theorem bitRows_xorRow_ofBool {mat : List Byte} (hl : mat.length = p.pkNrows * p.rowBytes) {x y : Nat}
    (hx : x < p.pkNrows) (hy : y < p.pkNrows) (b : Bool) : bitRows p (xorRow p mat x y (BitVec.ofBool b)) =
      if b = true then bitAddRow (bitRows p mat) x y else bitRows p mat := by
  cases b
  · have hkeep : xorRow p mat x y (BitVec.ofBool false) = mat :=
      ext_matGet p ((length_xorRow ..).trans hl) hl fun r c _ hc => by
        rw [matGet_xorRow_ofBool hl hy x r hc, if_neg fun h => Bool.noConfusion h.2]
    rw [hkeep, if_neg Bool.false_ne_true]
  · rw [if_pos rfl, bitAddRow_bitRows h hl hx hy]
    rfl

theorem bitAt_bitRows_of_lt (mat : List Byte) {r n : Nat} (hr : r < p.pkNrows) (hn : n < p.pkNrows) :
    bitAt (bitRows p mat) r n = matBit p mat r n := by
  obtain ⟨-, -, -, hle⟩ := Params.wellFormed_sizes h
  exact bitAt_bitRows hr (hn.trans_le hle)

variable {row : Nat} (hrow : row < p.pkNrows) {mat : List Byte} (hl : mat.length = p.pkNrows * p.rowBytes)
include hrow hl

theorem bitPass1_bitRows : bitPass1 p.pkNrows row (bitRows p mat) = bitRows p (pass1 p row mat) := by
  refine loopUp_map (bitRows p) (fun m => m.length = p.pkNrows * p.rowBytes) _ hl fun t ht m hm => ?_
  refine ⟨(length_pass1Step ..).trans hm, ?_⟩
  have hk : row + 1 + t < p.pkNrows := by omega
  rw [bitAt_bitRows_of_lt h m hrow hrow, bitAt_bitRows_of_lt h m hk hrow, pass1Step_eq_xorRow,
    bitRows_xorRow_ofBool h hm hk hrow]

theorem bitPass3_bitRows : bitPass3 p.pkNrows row (bitRows p mat) = bitRows p (pass3 p row mat) := by
  refine loopUp_map (bitRows p) (fun m => m.length = p.pkNrows * p.rowBytes) _ hl fun k hk m hm => ?_
  by_cases hkrow : k = row
  · simp [hkrow, hm]
  · rw [if_neg hkrow, bitAt_bitRows_of_lt h m hk hrow, pass3Step_eq_xorRow, bitRows_xorRow_ofBool h hm hrow hk]
    exact ⟨(length_xorRow ..).trans hm, by simp [hkrow]⟩

end passes

/-- The reductions of rows and of bytes run in step, pivot by pivot (R198). -/
theorem bitReduceFrom_bitRows {p : Params} (h : p.wellFormed = true) {n row : Nat} {mat : List Byte}
    (hl : mat.length = p.pkNrows * p.rowBytes) (hn : row + n ≤ p.pkNrows) :
    bitReduceFrom p.pkNrows n row (bitRows p mat) =
      ((reduceFrom p n row mat).ok, bitRows p (reduceFrom p n row mat).mat) := by
  induction n generalizing row mat with
  | zero => rfl
  | succ n ih =>
    have hrow : row < p.pkNrows := by omega
    have hl1 := (length_pass1 p row mat).trans hl
    rw [bitReduceFrom, bitPass1_bitRows h hrow hl, bitAt_bitRows_of_lt h _ hrow hrow]
    rcases pivotStep_cases p row mat with ⟨hpivot, hstep⟩ | ⟨hpivot, hstep⟩
    · rw [reduceFrom_succ_of_nonSystematic hstep, if_pos ((pivotBit_eq_zero_iff ..).1 hpivot)]
      rfl
    · rw [reduceFrom_succ_of_done hstep, (pivotBit_eq_one_iff ..).1 hpivot, if_neg Bool.noConfusion,
        bitPass3_bitRows h hrow hl1, ih ((length_pass3 ..).trans hl1) (by omega)]

/-- Settles O53: row additions, the bits they are decided by, and the checks agree. -/
theorem byteReducerRefinesTheBitReducer : Obligations.ByteReducerRefinesTheBitReducer := fun _ _ h hl =>
  bitReduceFrom_bitRows h hl (Nat.zero_add _).le

end Sys2Proof.Machine
end

section
/-! SUPPORT. The key and the commands as functions of what they read (10_state.md R41; 45_serializer_and_keygen.md R213
to R219): the key's bits, PK.GEN as its stages, what it leaves in each buffer, and that no old content survives. -/

namespace Sys2Proof.Machine

/-! ## The bits of the key (R213) -/

/-- Bit `b` of a byte PK.SER copies is the bit of MAT at its column of T. -/
theorem getLsbD_cell_pkSer {s : State} (hs : s.Inv) {row c b : Nat} (hrow : row < s.params.pkNrows)
    (hc : c < s.params.pkRowBytes) (hb : b < 8) :
    (cell (pkSer s).mem.pk (row * s.params.pkRowBytes + c)).getLsbD b =
      matBit s.params s.mem.mat row (s.params.pkNrows + 8 * c + b) := by
  obtain ⟨-, -, -, -, -, -, hpk, -⟩ := hs.memory
  obtain ⟨-, -, h8, -⟩ := Params.wellFormed_sizes hs.params
  have hbyte : cell (pkSer s).mem.pk (row * s.params.pkRowBytes + c) = _ :=
    cell_serialize s.params s.mem.mat hpk hrow hc
  have hcolumn : 8 * (s.params.pkNrows / 8 + c) + b = s.params.pkNrows + 8 * c + b := by omega
  rw [hbyte, getLsbD_matGet _ _ _ _ hb, hcolumn]

/-- Settles O55: PK.SER copies the byte columns from PK_NROWS / 8 on, and PK_NROWS is a multiple of 8. -/
theorem keyBitsAreTheEntriesOfT : Obligations.KeyBitsAreTheEntriesOfT := by
  intro s t hs ht _
  have hparams : t.params = s.params := (sameHost_of_exec ht).1
  refine ⟨_, exec_pkSer t, fun row c b => ?_⟩
  rw [← hparams]
  exact getLsbD_cell_pkSer (exec_inv hs ht)

/-! ## PK.GEN as its stages (R215, R218) -/

/-- Settles O56: STATUS reads -1 exactly when the reduction has set FAIL, and then PK.SER is left out. -/
theorem pkGenIsTheStageSequence : Obligations.PkGenIsTheStageSequence := by
  intro s
  refine ⟨_, _, _, _, pkGenReduced s, exec_skLoadg s, exec_supGen _, exec_rootEval _, exec_matBuild _, exec_redRun _,
    ?_⟩
  rw [pkGenReduced_status, exec_pkGen, exec_pkSer]
  rcases pkGen_cases s with ⟨hfail, hgen⟩ | ⟨hfail, hgen⟩
  · rw [hgen, hfail, if_neg (by decide)]
  · rw [hgen, hfail, if_pos sext32_true]

/-! ## What PK.GEN leaves in each buffer (R217) -/

section working
variable (s : State)

theorem pkGen_same_reduced {sp : Space} (hpk : sp ≠ .pk) : Memory.same sp (pkGen s).mem (pkGenReduced s).mem := by
  rcases pkGen_cases s with ⟨-, hgen⟩ | ⟨-, hgen⟩
  · rw [hgen]; exact pkSer_same _ hpk
  · rw [hgen]; exact Memory.same_refl _

/-- A buffer other than PK and MAT is left as MAT.BUILD left it. -/
theorem pkGen_same_built {sp : Space} (hpk : sp ≠ .pk) (hmat : sp ≠ .mat) :
    Memory.same sp (pkGen s).mem (matBuild (rootEval (supGen (skLoadg s)))).mem :=
  (pkGen_same_reduced s hpk).trans (redRun_same _ hmat)

/-- A buffer SUP.GEN writes is not written after it. -/
theorem pkGen_same_supGen {sp : Space} (hpk : sp ≠ .pk) (hmat : sp ≠ .mat) (hinv : sp ≠ .inv) :
    Memory.same sp (pkGen s).mem (supGen (skLoadg s)).mem :=
  (pkGen_same_built s hpk hmat).trans <| (matBuild_same _ hinv hmat).trans (rootEval_same _ hinv)

theorem pkGen_mem_g : (pkGen s).mem.g = (skLoadg s).mem.g :=
  (pkGen_same_supGen s (sp := .g) (by decide) (by decide) (by decide)).trans
    (supGen_same (sp := .g) _ (by decide) (by decide))

theorem pkGen_mem_perm : (pkGen s).mem.perm = (supGen (skLoadg s)).mem.perm :=
  pkGen_same_supGen s (sp := .perm) (by decide) (by decide) (by decide)

theorem pkGen_mem_l : (pkGen s).mem.l = (supGen (skLoadg s)).mem.l :=
  pkGen_same_supGen s (sp := .l) (by decide) (by decide) (by decide)

theorem pkGen_mem_inv : (pkGen s).mem.inv = (matBuild (rootEval (supGen (skLoadg s)))).mem.inv :=
  pkGen_same_built s (sp := .inv) (by decide) (by decide)

theorem pkGen_mem_mat :
    (pkGen s).mem.mat = (reduce s.params (matBuild (rootEval (supGen (skLoadg s)))).mem.mat).mat := by
  have hreduced : (pkGen s).mem.mat = (pkGenReduced s).mem.mat := pkGen_same_reduced s (sp := .mat) (by decide)
  rw [hreduced, pkGenReduced, redRun_mem]
  rfl

theorem pkGen_mem_sk : (pkGen s).mem.sk = s.mem.sk :=
  pkGen_same s (sp := .sk) (by decide) fun h => Space.noConfusion h.1

end working

/-- The reciprocals MAT.BUILD advances are those of the loaded polynomial at the support (R145, R166). -/
theorem cell_pkGen_inv {s : State} (hs : s.Inv) {n : Nat} (hn : n < s.params.sysN) : cell (pkGen s).mem.inv n =
    gfMul s.params (gfInv s.params (gfEval s.params (pkGen s).mem.g (cell (pkGen s).mem.l n)))
      (gfPow s.params (cell (pkGen s).mem.l n) s.params.sysT) := by
  have hsup := supGen_inv (skLoadg_inv hs)
  obtain ⟨-, -, -, -, hinv, -⟩ := hsup.memory
  have hreciprocal : cell (rootEval (supGen (skLoadg s))).mem.inv n = _ :=
    cell_reciprocals s.params (supGen (skLoadg s)).mem.g (supGen (skLoadg s)).mem.l hinv hn
  have hadvanced := cell_matBuild_inv (rootEval_inv hsup) hn
  rw [hreciprocal] at hadvanced
  rw [pkGen_mem_inv, pkGen_mem_g, pkGen_mem_l]
  exact hadvanced

/-- Settles O58: each working buffer holds what its own stage left, since no later stage writes it. -/
theorem pkGenOverwritesTheWorkingBuffers : Obligations.PkGenOverwritesTheWorkingBuffers := by
  intro s hs
  obtain ⟨g, hload, -, hone, hcoefficients, -⟩ := skLoadgLoadsTheCoefficients s hs
  obtain ⟨t2, hsup, hperm, -⟩ := supGenGivesAPermutation (skLoadg s) (skLoadg_inv hs)
  cases (exec_supGen (skLoadg s)).symm.trans hsup
  have hg : (pkGen s).mem.g = g := by
    rw [pkGen_mem_g, Host.Outcome.next.inj ((exec_skLoadg s).symm.trans hload)]
  have hl {i : Nat} (hi : i < s.params.sysN) : cell (supGen (skLoadg s)).mem.l i = _ :=
    cell_supGen_l (skLoadg_inv hs) hi
  refine ⟨pkGen s, _, _, _, _, exec_pkGen s, exec_skLoadg s, exec_supGen _, exec_rootEval _, exec_matBuild _,
    pkGen_mem_g s, hg ▸ hone, hg ▸ hcoefficients, pkGen_mem_perm s, ?_, fun i hi => ?_,
    fun n hn => cell_pkGen_inv hs hn, pkGen_mem_mat s, pkGen_mem_sk s, pkGen_fr s⟩
  · rw [pkGen_mem_perm]; exact hperm
  · rw [pkGen_mem_l, pkGen_mem_perm]; exact hl hi

/-! ## Every buffer a stage writes is written whole (10_state.md R41, R45) -/

section whole
variable {p : Params}

theorem loadCoefficients_congr (sk : List Byte) {g g' : List Elem} (hg : g.length = p.sysT + 1)
    (hg' : g'.length = p.sysT + 1) : loadCoefficients p sk g = loadCoefficients p sk g' :=
  ext_cell (by simp [hg, hg']) fun i hi => by
    rw [length_loadCoefficients, hg] at hi
    rw [cell_loadCoefficients p sk hg hi, cell_loadCoefficients p sk hg' hi]

theorem supportFill_congr (perm : List Word) {l l' : List Elem} (hl : l.length = p.sysN) (hl' : l'.length = p.sysN) :
    supportFill p perm l = supportFill p perm l' :=
  ext_cell (by simp [hl, hl']) fun i hi => by
    rw [length_supportFill, hl] at hi
    rw [cell_supportFill p perm hl hi, cell_supportFill p perm hl' hi]

theorem reciprocals_congr (g l : List Elem) {inv inv' : List Elem} (hinv : inv.length = p.sysN)
    (hinv' : inv'.length = p.sysN) : reciprocals p g l inv = reciprocals p g l inv' :=
  ext_cell (by simp [hinv, hinv']) fun i hi => by
    rw [length_reciprocals, hinv] at hi
    rw [cell_reciprocals p g l hinv hi, cell_reciprocals p g l hinv' hi]

/-- INV during a layer does not depend on MAT. -/
theorem buildLayers_inv_congr (l inv : List Elem) (mat mat' : List Byte) (n : Nat) :
    (buildLayers p l n (mat, inv)).2 = (buildLayers p l n (mat', inv)).2 := by
  induction n with
  | zero => rfl
  | succ n ih => rw [buildLayers_succ, buildLayers_succ, ih]

/-- All SYS_T layers write all PK_NROWS rows. -/
theorem buildLayers_mat_congr (h1 : 1 ≤ p.gfbits) (l inv : List Elem) {mat mat' : List Byte}
    (hmat : mat.length = p.pkNrows * p.rowBytes) (hmat' : mat'.length = p.pkNrows * p.rowBytes) :
    (buildLayers p l p.sysT (mat, inv)).1 = (buildLayers p l p.sysT (mat', inv)).1 := by
  refine ext_matGet p ((length_buildLayers_mat ..).trans hmat) ((length_buildLayers_mat ..).trans hmat')
    fun r c hr hc => ?_
  have hlast : r < p.sysT * p.gfbits := by rwa [Nat.mul_comm]
  rw [matGet_buildLayers mat h1 hmat le_rfl r hc, matGet_buildLayers mat' h1 hmat' le_rfl r hc, if_pos hlast,
    if_pos hlast, buildLayers_inv_congr l inv mat mat']

theorem serialize_congr (mat : List Byte) {pk pk' : List Byte} (hpk : pk.length = p.pkBytes)
    (hpk' : pk'.length = p.pkBytes) : serialize p mat pk = serialize p mat pk' :=
  serialize_eq hpk ((length_serialize ..).trans hpk') fun _ _ => cell_serialize p mat hpk'

end whole

/-! ## The stages on two states that agree on what they read -/

section congruence
variable {s s' : State} (hs : s.Inv) (hs' : s'.Inv) (hp : s.params = s'.params)
include hs hs' hp

theorem skLoadg_congr (hsk : s.mem.sk = s'.mem.sk) : (skLoadg s).mem.g = (skLoadg s').mem.g := by
  obtain ⟨-, hg, -⟩ := hs.memory
  obtain ⟨-, hg', -⟩ := hs'.memory
  rw [← hp] at hg'
  simp only [skLoadg, setG_mem, ← hp, ← hsk]
  exact loadCoefficients_congr _ hg hg'

theorem supGen_congr (hperm : s.mem.perm = s'.mem.perm) :
    (supGen s).mem.perm = (supGen s').mem.perm ∧ (supGen s).mem.l = (supGen s').mem.l := by
  obtain ⟨-, -, -, hl, -⟩ := hs.memory
  obtain ⟨-, -, -, hl', -⟩ := hs'.memory
  rw [← hp] at hl'
  simp only [supGen_mem, ← hp, ← hperm]
  exact ⟨trivial, supportFill_congr _ hl hl'⟩

theorem rootEval_congr (hg : s.mem.g = s'.mem.g) (hl : s.mem.l = s'.mem.l) :
    (rootEval s).mem.inv = (rootEval s').mem.inv := by
  obtain ⟨-, -, -, -, hinv, -⟩ := hs.memory
  obtain ⟨-, -, -, -, hinv', -⟩ := hs'.memory
  rw [← hp] at hinv'
  simp only [rootEval, setInv_mem, ← hp, ← hg, ← hl]
  exact reciprocals_congr _ _ hinv hinv'

theorem matBuild_congr (hl : s.mem.l = s'.mem.l) (hinv : s.mem.inv = s'.mem.inv) :
    (matBuild s).mem.mat = (matBuild s').mem.mat ∧ (matBuild s).mem.inv = (matBuild s').mem.inv := by
  obtain ⟨h1, -⟩ := Params.wellFormed_field hs.params
  obtain ⟨-, -, -, -, -, hmat, -⟩ := hs.memory
  obtain ⟨-, -, -, -, -, hmat', -⟩ := hs'.memory
  rw [← hp] at hmat'
  simp only [matBuild, setInv_mem, setMat_mem, ← hp, ← hl, ← hinv]
  exact ⟨buildLayers_mat_congr h1 _ _ hmat hmat', buildLayers_inv_congr _ _ _ _ _⟩

omit hs hs' in
theorem redRun_congr (hmat : s.mem.mat = s'.mem.mat) :
    (redRun s).mem.mat = (redRun s').mem.mat ∧ (redRun s).status = (redRun s').status := by
  simp only [redRun_eq, ← hp, ← hmat]
  exact ⟨trivial, trivial⟩

theorem pkSer_congr (hmat : s.mem.mat = s'.mem.mat) : (pkSer s).mem.pk = (pkSer s').mem.pk := by
  obtain ⟨-, -, -, -, -, -, hpk, -⟩ := hs.memory
  obtain ⟨-, -, -, -, -, -, hpk', -⟩ := hs'.memory
  rw [← hp] at hpk'
  simp only [pkSer, setPk_mem, ← hp, ← hmat]
  exact serialize_congr _ hpk hpk'

/-- The stages of PK.GEN one after another: what one of them writes is what the next ones read. -/
theorem pkGenReduced_congr (hsk : s.mem.sk = s'.mem.sk) (hperm : s.mem.perm = s'.mem.perm) :
    (∀ sp ∈ opcodeWrites .pkGen, Memory.same sp (pkGenReduced s).mem (pkGenReduced s').mem) ∧
      (pkGenReduced s).status = (pkGenReduced s').status := by
  have hload := skLoadg_inv hs
  have hload' := skLoadg_inv hs'
  have hg := skLoadg_congr hs hs' hp hsk
  obtain ⟨hperm, hl⟩ := supGen_congr hload hload' hp hperm
  have hinv := rootEval_congr (supGen_inv hload) (supGen_inv hload') hp hg hl
  obtain ⟨hmat, hinv⟩ := matBuild_congr (rootEval_inv (supGen_inv hload)) (rootEval_inv (supGen_inv hload')) hp hl hinv
  obtain ⟨hmat, hstatus⟩ := redRun_congr (s := matBuild (rootEval (supGen (skLoadg s))))
    (s' := matBuild (rootEval (supGen (skLoadg s')))) hp hmat
  refine ⟨fun sp hsp => ?_, hstatus⟩
  by_cases hspmat : sp = .mat
  · subst hspmat; exact hmat
  · refine (redRun_same _ hspmat).trans (Memory.same.trans ?_ (redRun_same _ hspmat).symm)
    simp only [opcodeWrites, List.mem_cons, List.not_mem_nil, or_false] at hsp
    rcases hsp with rfl | rfl | rfl | rfl | rfl
    · exact hg
    · exact hperm
    · exact hl
    · exact hinv
    · exact absurd rfl hspmat

/-- PK.GEN as a function of SK and PERM (R219). -/
theorem pkGen_congr (hsk : s.mem.sk = s'.mem.sk) (hperm : s.mem.perm = s'.mem.perm) :
    (∀ sp ∈ opcodeWrites .pkGen, Memory.same sp (pkGen s).mem (pkGen s').mem) ∧ (pkGen s).status = (pkGen s').status ∧
      ((pkGen s).status = 0x00000000#32 → (pkGen s).mem.pk = (pkGen s').mem.pk) := by
  obtain ⟨hsame, hstatus⟩ := pkGenReduced_congr hs hs' hp hsk hperm
  have hfail : (pkGenReduced s).fail = (pkGenReduced s').fail := congrArg (fun v => v.getLsbD 0) hstatus
  refine ⟨fun sp hsp => ?_, ?_⟩
  · have hpk : sp ≠ .pk := by rintro rfl; revert hsp; decide
    exact (pkGen_same_reduced s hpk).trans ((hsame sp hsp).trans (pkGen_same_reduced s' hpk).symm)
  rcases pkGen_cases s with ⟨hok, hgen⟩ | ⟨hnot, hgen⟩
  · have hgen' : pkGen s' = pkSer (pkGenReduced s') := if_pos (hfail ▸ hok)
    rw [hgen, hgen']
    exact ⟨hstatus, fun _ => pkSer_congr (pkGenReduced_inv hs) (pkGenReduced_inv hs') (by simpa using hp)
      (hsame .mat (by decide))⟩
  · have hgen' : pkGen s' = pkGenReduced s' := if_neg (by simp [← hfail, hnot])
    rw [hgen, hgen']
    refine ⟨hstatus, fun hzero => ?_⟩
    rw [fail_eq_false_of_status hzero] at hnot
    cases hnot

end congruence

/-- Settles O59: PK.GEN reads SK and PERM only. -/
theorem keyDependsOnSecretAndSeedOnly : Obligations.KeyDependsOnSecretAndSeedOnly := by
  intro s s' hs hs' hp hsk hperm
  obtain ⟨-, hstatus, hpk⟩ := pkGen_congr hs hs' hp hsk hperm
  exact ⟨_, _, exec_pkGen s, exec_pkGen s', hstatus, hpk⟩

end Sys2Proof.Machine
end

section
/-! SUPPORT. Noninterference (10_state.md R41, R45): each command on two states that agree on the buffers it reads. -/

namespace Sys2Proof.Machine

/-- Settles O22: what each command writes is the stage functions' value at what it reads. -/
theorem commandsDependOnlyOnWhatTheyRead : Obligations.CommandsDependOnlyOnWhatTheyRead := by
  intro i s s' hs hs' hp hread
  obtain ⟨t, ht⟩ := everyCommandTerminates i s
  obtain ⟨t', ht'⟩ := everyCommandTerminates i s'
  refine ⟨t, t', ht, ht', ?_⟩
  cases i with
  | gfMul | gfInv | gfBitrev =>
    cases ht
    cases ht'
    exact ⟨fun _ hsp => absurd hsp List.not_mem_nil, fun _ => by simp [hp], nofun, nofun⟩
  | skLoadg =>
    cases ht
    cases ht'
    have hg := skLoadg_congr hs hs' hp (hread .sk (by decide))
    exact ⟨List.forall_mem_singleton.2 hg, nofun, nofun, nofun⟩
  | supGen =>
    cases ht
    cases ht'
    obtain ⟨hperm, hl⟩ := supGen_congr hs hs' hp (hread .perm (by decide))
    exact ⟨List.forall_mem_cons.2 ⟨hperm, List.forall_mem_singleton.2 hl⟩, nofun, nofun, nofun⟩
  | rootEval =>
    cases ht
    cases ht'
    have hinv := rootEval_congr hs hs' hp (hread .g (by decide)) (hread .l (by decide))
    exact ⟨List.forall_mem_singleton.2 hinv, nofun, nofun, nofun⟩
  | matBuild =>
    cases ht
    cases ht'
    obtain ⟨hmat, hinv⟩ := matBuild_congr hs hs' hp (hread .l (by decide)) (hread .inv (by decide))
    exact ⟨List.forall_mem_cons.2 ⟨hinv, List.forall_mem_singleton.2 hmat⟩, nofun, nofun, nofun⟩
  | redRun =>
    cases ht
    cases ht'
    obtain ⟨hmat, hstatus⟩ := redRun_congr hp (hread .mat (by decide))
    exact ⟨List.forall_mem_singleton.2 hmat, nofun, fun _ => hstatus, nofun⟩
  | pkSer =>
    cases ht
    cases ht'
    have hpk := pkSer_congr hs hs' hp (hread .mat (by decide))
    exact ⟨List.forall_mem_singleton.2 hpk, nofun, nofun, nofun⟩
  | pkGen =>
    cases ht
    cases ht'
    obtain ⟨hsame, hstatus, hpk⟩ := pkGen_congr hs hs' hp (hread .sk (by decide)) (hread .perm (by decide))
    exact ⟨hsame, nofun, fun _ => hstatus, fun _ => hpk⟩

end Sys2Proof.Machine
end
